-- ==== Sys2Proof/Word.lean ====
section
/-! DEFINITION. The widths of the device's values: every register is 32 bits (spec/10_state.md R22),
every element of a block, a key or a table is 8 bits (spec/00_scope.md R11). -/

namespace Sys2Proof

/-- A `u32` of the spec: a register, a command word, a column of the State (00_scope.md R11). -/
abbrev Word := BitVec 32

/-- A `u8` of the spec: a field element, a byte of a block (00_scope.md R11). -/
abbrev Byte := BitVec 8

end Sys2Proof
end

