-- ==== Sys2Proof/Syntax.lean ====
section
/-! DEFINITION. The commands of the device: one constructor per row of spec/opcode_table.json
(spec/30_encoding.md R84). The two format I commands carry IMM8 as the number it is: "an unsigned
8-bit value, used as it stands" (R83). -/

namespace Sys2Proof

/-- A command of the engine, the device's instruction (00_scope.md R19, 30_encoding.md R84). -/
inductive Instr where
  | nop          -- 0x00  44_control.md R195
  | gadd         -- 0x10  40_gf_arith.md R109
  | gdbl         -- 0x11  40_gf_arith.md R110
  | gtpl         -- 0x12  40_gf_arith.md R111
  | gmul         -- 0x13  40_gf_arith.md R112
  | mixcol       -- 0x14  40_gf_arith.md R113
  | invmixcol    -- 0x15  40_gf_arith.md R114
  | subb         -- 0x20  41_substitution.md R126
  | invsubb      -- 0x21  41_substitution.md R127
  | subw         -- 0x22  41_substitution.md R128
  | wbyte (index : Nat)  -- 0x23, format I  41_substitution.md R129
  | rotw         -- 0x30  42_key_schedule.md R145
  | expand       -- 0x31  42_key_schedule.md R146
  | subbytes     -- 0x40  43_round_pipeline.md R169
  | invsubbytes  -- 0x41  43_round_pipeline.md R170
  | shiftrows    -- 0x42  43_round_pipeline.md R171
  | invshiftrows -- 0x43  43_round_pipeline.md R172
  | mixcols      -- 0x44  43_round_pipeline.md R173
  | invmixcols   -- 0x45  43_round_pipeline.md R174
  | addrk (round : Nat)  -- 0x46, format I  43_round_pipeline.md R175
  | encrypt      -- 0x50  43_round_pipeline.md R176
  | decrypt      -- 0x51  43_round_pipeline.md R177
  deriving DecidableEq, Repr

/-- The two command formats (30_encoding.md R82): N has no immediate, I takes IMM8 as an operand. -/
inductive Format where
  | n
  | i
  deriving DecidableEq, Repr

/-- "Only WBYTE and ADDRK are format I" (30_encoding.md R82). -/
def Instr.format : Instr → Format
  | .wbyte _ => .i
  | .addrk _ => .i
  | .nop | .gadd | .gdbl | .gtpl | .gmul | .mixcol | .invmixcol => .n
  | .subb | .invsubb | .subw | .rotw | .expand => .n
  | .subbytes | .invsubbytes | .shiftrows | .invshiftrows | .mixcols | .invmixcols => .n
  | .encrypt | .decrypt => .n

end Sys2Proof
end

