-- ==== Sys2Proof/WellFormed.lean ====
section
/-! DEFINITION. Which instructions have an encoding: the immediate of a format I command is in
"the range 0 to 255" (spec/30_encoding.md R88). The tighter ranges of WBYTE and ADDRK are not
checks of form: they are part of the commands' own rules (R83). -/

namespace Sys2Proof

/-- The check of IMM8's width, one for each format I command; the other commands have no operand. -/
def Instr.wf : Instr → Bool
  | .wbyte index => decide (index ≤ 255)
  | .addrk round => decide (round ≤ 255)
  | .nop | .gadd | .gdbl | .gtpl | .gmul | .mixcol | .invmixcol => true
  | .subb | .invsubb | .subw | .rotw | .expand => true
  | .subbytes | .invsubbytes | .shiftrows | .invshiftrows | .mixcols | .invmixcols => true
  | .encrypt | .decrypt => true

end Sys2Proof
end

