-- ==== Sys2Proof/Decode.lean ====
section
/-! DEFINITION. The decoder, total on every 32-bit word, and the encoder (spec/30_encoding.md
R80 to R88). Every command is exactly one 32-bit word (R80), so there is no length to determine. -/

namespace Sys2Proof

/-- OP, bits [7:0] of a command word (30_encoding.md R81). -/
def opField (w : Word) : BitVec 8 := w.extractLsb' 0 8

/-- IMM8, bits [15:8] of a command word (30_encoding.md R81). -/
def immField (w : Word) : BitVec 8 := w.extractLsb' 8 8

/-- RSV, bits [31:16] of a command word (30_encoding.md R81). -/
def rsvField (w : Word) : BitVec 16 := w.extractLsb' 16 16

/-- Why a word is illegal; the device reports ILLEGAL_COMMAND for all three (30_encoding.md R86). -/
inductive Reject where
  | reservedNonzero     -- RSV is not 0
  | unassignedOpcode    -- OP is not in the opcode map
  | immediateOnFormatN  -- IMM8 is not 0 on a format N command
  deriving DecidableEq, Repr

/-- What the decoder reads from a word: "every 32-bit value is either valid or illegal" (30_encoding.md R86). -/
inductive Decoded where
  | ok (i : Instr)
  | illegal (r : Reject)
  deriving DecidableEq, Repr

/-- A format N command requires IMM8 = 0 (30_encoding.md R82). -/
def formatN (w : Word) (i : Instr) : Decoded :=
  if immField w = 0 then .ok i else .illegal .immediateOnFormatN

/-- The opcode map (30_encoding.md R84) under the validity rule (R86). -/
def decode (w : Word) : Decoded :=
  if rsvField w ≠ 0 then .illegal .reservedNonzero
  else
    match (opField w).toNat with
    | 0x00 => formatN w .nop
    | 0x10 => formatN w .gadd
    | 0x11 => formatN w .gdbl
    | 0x12 => formatN w .gtpl
    | 0x13 => formatN w .gmul
    | 0x14 => formatN w .mixcol
    | 0x15 => formatN w .invmixcol
    | 0x20 => formatN w .subb
    | 0x21 => formatN w .invsubb
    | 0x22 => formatN w .subw
    | 0x23 => .ok (.wbyte (immField w).toNat)
    | 0x30 => formatN w .rotw
    | 0x31 => formatN w .expand
    | 0x40 => formatN w .subbytes
    | 0x41 => formatN w .invsubbytes
    | 0x42 => formatN w .shiftrows
    | 0x43 => formatN w .invshiftrows
    | 0x44 => formatN w .mixcols
    | 0x45 => formatN w .invmixcols
    | 0x46 => .ok (.addrk (immField w).toNat)
    | 0x50 => formatN w .encrypt
    | 0x51 => formatN w .decrypt
    | _ => .illegal .unassignedOpcode

/-- The command word whose `nbits` bits are `w`, numbered as spec/opcode_table.json numbers them. -/
def tableWord (nbits w : Nat) : Word := BitVec.ofNat 32 (w % 2 ^ nbits)

/-- The instruction the decoder reads from a row's word; every row of the table is one 32-bit word. -/
def decodeTableWord (nbits w : Nat) : Option Instr :=
  match decode (tableWord nbits w) with
  | .ok i => some i
  | .illegal _ => none

/-- The opcode of each command (30_encoding.md R84). -/
def Instr.opcode : Instr → BitVec 8
  | .nop => 0x00#8
  | .gadd => 0x10#8
  | .gdbl => 0x11#8
  | .gtpl => 0x12#8
  | .gmul => 0x13#8
  | .mixcol => 0x14#8
  | .invmixcol => 0x15#8
  | .subb => 0x20#8
  | .invsubb => 0x21#8
  | .subw => 0x22#8
  | .wbyte _ => 0x23#8
  | .rotw => 0x30#8
  | .expand => 0x31#8
  | .subbytes => 0x40#8
  | .invsubbytes => 0x41#8
  | .shiftrows => 0x42#8
  | .invshiftrows => 0x43#8
  | .mixcols => 0x44#8
  | .invmixcols => 0x45#8
  | .addrk _ => 0x46#8
  | .encrypt => 0x50#8
  | .decrypt => 0x51#8

/-- The immediate `i` of `enc(m, i)`, "with `i = 0` for format N" (30_encoding.md R88). -/
def Instr.immediate : Instr → Nat
  | .wbyte index => index
  | .addrk round => round
  | .nop | .gadd | .gdbl | .gtpl | .gmul | .mixcol | .invmixcol => 0
  | .subb | .invsubb | .subw | .rotw | .expand => 0
  | .subbytes | .invsubbytes | .shiftrows | .invshiftrows | .mixcols | .invmixcols => 0
  | .encrypt | .decrypt => 0

/-- `enc(m, i) = (i << 8) | OP(m)` (30_encoding.md R88). -/
def encode (i : Instr) : Word := (BitVec.ofNat 32 i.immediate <<< 8) ||| i.opcode.setWidth 32

end Sys2Proof
end

