-- ==== Sys2Proof/Config.lean ====
section
/-! DEFINITION. What one implementation or one platform fixes (spec/00_scope.md R10), and the free
values behind the spec's "any value" (R17). The constants are opaque: no proof can see what they are,
so whatever is proved holds for every choice of them. -/

namespace Sys2Proof.Config

/-- The value that the `n`-th "any value" draw returns: "an unspecified u32 drawn freshly at each
read, under no law" (00_scope.md R17). `State.draws` counts the draws (log entry 2). -/
opaque freeWord : Nat → Word

/-- `BASE / 0x200`; where the platform puts the window is open (00_scope.md R10). -/
opaque windowNumber : Nat

/-- `BASE`, the bus address of offset 0x000: "a multiple of 0x200" (00_scope.md R10, 20_memory.md R61). -/
def base : Nat := 0x200 * windowNumber

/-- `LAT(op, variant) - 1` in cycles, by opcode and by the two-bit variant code (00_scope.md R10). -/
opaque extraCycles : BitVec 8 → BitVec 2 → Nat

/-- `LAT(op, variant)`: "a positive number of cycles; no rule depends on it" (00_scope.md R10,
70_reset_and_hazards.md R239). The step does not read it, as R239 asks: a model does not represent time. -/
def latency (op : BitVec 8) (kvar : BitVec 2) : Nat := extraCycles op kvar + 1

end Sys2Proof.Config
end

