-- ==== Sys2Proof/Machine/State.lean ====
section
/-! DEFINITION. The state of one device instance, "this record" of spec/10_state.md R21, and beside it
what the world outside has in hand: the host's next operations, the choice of the next agent, and the
reset line. All of it is plain data. -/

namespace Sys2Proof.Machine

/-- A key variant (10_state.md R31, 42_key_schedule.md R140). The code 3 of KVAR is "never written", so it
is not a value of this type. -/
inductive Variant where
  | aes128
  | aes192
  | aes256
  deriving DecidableEq, Repr

/-- The error codes that STATUS.ERR can hold (60_exceptions.md R201). The codes 5 to 15 are "never
written", so they are not values of this type. -/
inductive ErrCode where
  | none
  | invalidKeyLength
  | noKeySchedule
  | operandRange
  | illegalCommand
  deriving DecidableEq, Repr

/-- CTRL (10_state.md R24); its reserved bits read 0 and are not stored. -/
structure Ctrl where
  keyLen : BitVec 8
  irqEn : Bool
  deriving DecidableEq, Repr

/-- STATUS (10_state.md R27); its reserved bits read 0 and are not stored. -/
structure Status where
  busy : Bool
  done : Bool
  keyValid : Bool
  kvar : Variant
  ovr : Bool
  err : ErrCode
  deriving DecidableEq, Repr

/-- A State value of the cipher: four columns, `c0` to `c3` (10_state.md R39, 00_scope.md R16). -/
structure Block where
  c0 : Word
  c1 : Word
  c2 : Word
  c3 : Word
  deriving DecidableEq, Repr

/-- The two agents that act on the device (10_state.md R20). -/
inductive Agent where
  | host
  | engine
  deriving DecidableEq, Repr

/-- What the outside can do to the device (70_reset_and_hazards.md R240), in the primitives of
00_scope.md R14 and 30_encoding.md R89. An offset is the bus address less `Config.base`. -/
inductive HostOp where
  /-- `MemRead(off, width)` -/
  | read (off width : Nat)
  /-- `MemWrite(off, width, v)` -/
  | write (off width : Nat) (v : Word)
  /-- `X name = R reg`: a read of 4 bytes whose value the host keeps under a name (30_encoding.md R89) -/
  | readKeep (name off : Nat)
  /-- `W reg, name`: a write of 4 bytes of the value kept under that name (30_encoding.md R89) -/
  | writeKept (name off : Nat)
  /-- `WAIT`: "repeat `R STATUS` until bit 0 (BUSY) of the value read is 0" (30_encoding.md R89) -/
  | wait
  /-- the reset input becomes asserted (70_reset_and_hazards.md R230) -/
  | assertReset
  /-- the reset input is released -/
  | releaseReset
  deriving DecidableEq, Repr

/-- Why a step stops with a fault. No command raises one: "the device never traps, halts or hangs on an
error" (60_exceptions.md R200). -/
inductive Fault where
  /-- A host access that is not 32 bits wide or not 4-aligned, raised by the host operations `read`,
  `write`, `readKeep` and `writeKept`. The spec gives the fault: "a model treats such an access as a fault
  named `BusAccess`" (20_memory.md R63). Safe. -/
  | busAccess
  /-- A host access while the reset input is asserted, raised by every host operation but the two of the
  reset line: "a model gives the host no step while reset is asserted" (70_reset_and_hazards.md R230,
  93_implementation_defined.md: stuck). Safe. -/
  | hostAccessInReset
  deriving DecidableEq, Repr

/-- Why a step is refused. -/
inductive Refusal where
  /-- A command that has no meaning in this model, by its mnemonic; no arm of `exec` raises it. Safe. -/
  | notModelled (mnemonic : String)
  /-- A host access at an offset that is not in the window, raised by the host operations that access the
  bus: what stands there "is the platform's business and is not specified" (20_memory.md R61). Safe. -/
  | outsideWindow
  /-- A host operation `writeKept` whose name no `readKeep` has bound: the host program is malformed, and no
  rule gives it a value (30_encoding.md R89). Safe. -/
  | unboundHostName
  deriving DecidableEq, Repr

/-- The state. The first nine fields are the record of 10_state.md R21; the rest are the model's own. -/
structure State where
  ctrl : Ctrl
  status : Status
  opa : Word
  opb : Word
  result : Word
  key : Vector Word 8
  state : Block
  sched : Vector Word 60
  pend : Word
  /-- How many words of SCHED an EXPAND has written since reset; a read of any word from there on is
  "any value" (10_state.md R40, 70_reset_and_hazards.md R231; log entry 1). -/
  schedInit : Nat
  /-- The reset input is asserted (70_reset_and_hazards.md R230; log entry 4). -/
  inReset : Bool
  /-- How many "any value" draws have been made (00_scope.md R17; log entry 2). -/
  draws : Nat
  /-- The host's operations still to come, the next one first (log entry 3). -/
  hostOps : List HostOp
  /-- Which agent moves at each coming step in which both could: the interleaving (44_control.md R192,
  20_memory.md R71; log entry 3). -/
  turns : List Agent
  /-- The values that the host's reads have returned, the latest first (log entry 3). -/
  reads : List Word
  /-- The values the host keeps under names (30_encoding.md R89; log entry 3). -/
  hostNames : List (Nat × Word)
  deriving DecidableEq, Repr

/-- The reset values of 70_reset_and_hazards.md R230, 10_state.md R22, R24 and R27. SCHED has none in the spec:
its words hold 0 here and no read shows it, because `schedInit` is 0 (log entry 1, DESIGN CHOICE). -/
def State.reset : State where
  ctrl := ⟨0, false⟩
  status := ⟨false, false, false, .aes128, false, .none⟩
  opa := 0
  opb := 0
  result := 0
  key := Vector.replicate 8 0
  state := ⟨0, 0, 0, 0⟩
  sched := Vector.replicate 60 0
  pend := 0
  schedInit := 0
  inReset := false
  draws := 0
  hostOps := []
  turns := []
  reads := []
  hostNames := []

end Sys2Proof.Machine
end

