-- ==== Sys2Proof/Machine/Operands.lean ====
section
/-! DEFINITION. The operand forms of the commands: the bytes of a word (spec/00_scope.md R12), the byte
operands of the scalar commands (10_state.md R36), the elements of the State (R39), the parameters of a
variant (R31) and the round keys of the schedule (R40). -/

namespace Sys2Proof.Machine

/-- `byte(w, i)`, that is `w[31-8i : 24-8i]`: byte 0 is the most-significant (00_scope.md R12). -/
def byteOf (w : Word) (i : Fin 4) : Byte := w.extractLsb' (24 - 8 * i.val) 8

/-- `{a, b, c, d}` "with `a` in bits [31:24] and `d` in bits [7:0]" (00_scope.md R11). -/
def ofBytes (a b c d : Byte) : Word := a ++ b ++ c ++ d

/-- `zext_32(v)` of a byte (00_scope.md R11): a byte result fills bits [7:0] of RESULT (10_state.md R37). -/
def zext (b : Byte) : Word := b.setWidth 32

/-- The byte operand of a register: bits [7:0]; bits [31:8] are ignored (10_state.md R36). -/
def lowByte (w : Word) : Byte := w.setWidth 8

/-- A word made by a byte function applied to each byte in place (41_substitution.md R124). -/
def mapBytes (f : Byte → Byte) (w : Word) : Word :=
  ofBytes (f (byteOf w 0)) (f (byteOf w 1)) (f (byteOf w 2)) (f (byteOf w 3))

/-- Column `S[c]` (00_scope.md R16). -/
def Block.col (b : Block) : Fin 4 → Word
  | 0 => b.c0
  | 1 => b.c1
  | 2 => b.c2
  | 3 => b.c3

/-- The State with column `c` replaced, the effect of a host write to STATE[c] (10_state.md R39). -/
def Block.setCol (b : Block) (v : Word) : Fin 4 → Block
  | 0 => { b with c0 := v }
  | 1 => { b with c1 := v }
  | 2 => { b with c2 := v }
  | 3 => { b with c3 := v }

/-- `s[r][c]`, that is `byte(S[c], r)`: row `r`, column `c` (00_scope.md R16). -/
def Block.elem (b : Block) (r c : Fin 4) : Byte := byteOf (b.col c) r

/-- The State whose element in row `r`, column `c` is `f r c`. -/
def Block.ofElems (f : Fin 4 → Fin 4 → Byte) : Block where
  c0 := ofBytes (f 0 0) (f 1 0) (f 2 0) (f 3 0)
  c1 := ofBytes (f 0 1) (f 1 1) (f 2 1) (f 3 1)
  c2 := ofBytes (f 0 2) (f 1 2) (f 2 2) (f 3 2)
  c3 := ofBytes (f 0 3) (f 1 3) (f 2 3) (f 3 3)

/-- A word function applied to each column separately (43_round_pipeline.md R161, R164). -/
def Block.mapCols (f : Word → Word) (b : Block) : Block := ⟨f b.c0, f b.c1, f b.c2, f b.c3⟩

/-- `Nk(kvar)`, the key length in words (10_state.md R31). -/
def Variant.nk : Variant → Nat
  | .aes128 => 4
  | .aes192 => 6
  | .aes256 => 8

/-- `Nr(kvar)`, the number of rounds (10_state.md R31). -/
def Variant.nr : Variant → Nat
  | .aes128 => 10
  | .aes192 => 12
  | .aes256 => 14

/-- The schedule length `4 * (Nr + 1)` in words (10_state.md R31). -/
def Variant.words (v : Variant) : Nat := 4 * (v.nr + 1)

/-- The variant that a key length in bytes selects; `none` for any other length (42_key_schedule.md R140). -/
def Variant.ofKeyLen (n : BitVec 8) : Option Variant :=
  match n.toNat with
  | 16 => some .aes128
  | 24 => some .aes192
  | 32 => some .aes256
  | _ => none

/-- SCHED[i]. Every index that a command forms is below 60, so the value past the end is not one that a
command can read (43_round_pipeline.md R175). -/
def schedWord (sched : Vector Word 60) (i : Nat) : Word := (sched[i]?).getD 0

/-- Round key `rk`: "schedule words `4r .. 4r+3`" (00_scope.md R18). -/
def roundKey (sched : Vector Word 60) (rk : Nat) : Block where
  c0 := schedWord sched (4 * rk)
  c1 := schedWord sched (4 * rk + 1)
  c2 := schedWord sched (4 * rk + 2)
  c3 := schedWord sched (4 * rk + 3)

end Sys2Proof.Machine
end

