-- ==== Sys2Proof/Machine/Flags.lean ====
section
/-! DEFINITION. The flags: how CTRL and STATUS read and what sets and clears each field of STATUS
(spec/10_state.md R24 to R34, R44; 44_control.md R190, R193). -/

namespace Sys2Proof.Machine

/-- The word with bit `n` equal to the flag and every other bit 0. -/
def flagBit (b : Bool) (n : Nat) : Word := if b then 1#32 <<< n else 0#32

/-- The two-bit code of KVAR (10_state.md R31). -/
def Variant.code : Variant → BitVec 2
  | .aes128 => 0
  | .aes192 => 1
  | .aes256 => 2

/-- The four-bit code of ERR (60_exceptions.md R201). -/
def ErrCode.code : ErrCode → BitVec 4
  | .none => 0
  | .invalidKeyLength => 1
  | .noKeySchedule => 2
  | .operandRange => 3
  | .illegalCommand => 4

/-- CTRL as it reads: KEYLEN in [7:0], IRQ_EN in [8], the reserved bits 0 (10_state.md R24). -/
def Ctrl.word (c : Ctrl) : Word := c.keyLen.setWidth 32 ||| flagBit c.irqEn 8

/-- CTRL as a host write of `v` stores it: "reserved fields of CTRL are not stored" (10_state.md R22). -/
def Ctrl.ofWord (v : Word) : Ctrl := ⟨v.setWidth 8, v.getLsbD 8⟩

/-- STATUS as it reads: BUSY [0], DONE [1], KEY_VALID [2], KVAR [4:3], OVR [5], ERR [11:8], the reserved
bits 0 (10_state.md R27). -/
def Status.word (t : Status) : Word :=
  flagBit t.busy 0 ||| flagBit t.done 1 ||| flagBit t.keyValid 2 ||| (t.kvar.code.setWidth 32 <<< 3)
    ||| flagBit t.ovr 5 ||| (t.err.code.setWidth 32 <<< 8)

/-- STATUS after the issue of a command (44_control.md R190). -/
def Status.issued (t : Status) : Status := { t with busy := true, done := false, err := .none }

/-- STATUS after a completion with a code, `complete(code)` (44_control.md R193). -/
def Status.completed (t : Status) (code : ErrCode) : Status :=
  { t with err := code, busy := false, done := true }

/-- STATUS after a host write is dropped because BUSY = 1 (10_state.md R32). -/
def Status.dropped (t : Status) : Status := { t with ovr := true }

/-- STATUS after a host write of `v` to it: bit 1 clears DONE, bit 5 clears OVR (10_state.md R34). -/
def Status.acked (t : Status) (v : Word) : Status :=
  { t with done := t.done && !v.getLsbD 1, ovr := t.ovr && !v.getLsbD 5 }

/-- STATUS when a schedule becomes resident: KEY_VALID and KVAR together (10_state.md R30, R31). -/
def Status.resident (t : Status) (v : Variant) : Status := { t with keyValid := true, kvar := v }

/-- The output `irq`: `CTRL.IRQ_EN & STATUS.DONE` at every instant (10_state.md R44, 60_exceptions.md R210). -/
def State.irq (s : State) : Bool := s.ctrl.irqEn && s.status.done

end Sys2Proof.Machine
end

