-- ==== Sys2Proof/Machine/Ops.lean ====
section
/-! DEFINITION. The shared operations on the state: the issue and the completion of a command (spec/44_control.md
R190 to R194), the writes that commands make, and the reset (70_reset_and_hazards.md R230).

The device has no trap entry and no trap return (60_exceptions.md R212, R213). What stands in their place is one
shared operation each: `raiseError`, by which every failing command reports its code, and the host's
acknowledgement, which is a write of 1 to STATUS bit 1 (`ackStatus`) or the next issue (`issue`). -/

namespace Sys2Proof.Machine

/-- The three outcomes of a step, at this machine's types. -/
abbrev StepResult := Host.Outcome State Fault Refusal

/-- The issue of the command word `v` by a host write to CMD while idle (44_control.md R190). -/
def State.issue (s : State) (v : Word) : State := { s with pend := v, status := s.status.issued }

/-- `complete(code)`: the end of a command (44_control.md R193). -/
def State.complete (s : State) (code : ErrCode) : State := { s with status := s.status.completed code }

/-- A command's write of RESULT (10_state.md R37). -/
def State.writeResult (s : State) (v : Word) : State := { s with result := v }

/-- A command's write of STATE[0..3] (10_state.md R39). -/
def State.writeBlock (s : State) (b : Block) : State := { s with state := b }

/-- EXPAND's writes: SCHED[i] for each word of the list, the words above "keep their previous values", then
KVAR and KEY_VALID (42_key_schedule.md R146). -/
def State.writeSchedule (s : State) (v : Variant) (w : List Word) : State :=
  { s with
    sched := Vector.ofFn fun i : Fin 60 => (w[i.val]?).getD s.sched[i]
    schedInit := max s.schedInit w.length
    status := s.status.resident v }

/-- A host write of `v` to STATUS (10_state.md R34). -/
def State.ackStatus (s : State) (v : Word) : State := { s with status := s.status.acked v }

/-- A host write dropped because BUSY = 1: the register keeps its value and OVR is set
(70_reset_and_hazards.md R235, 44_control.md R191). -/
def State.dropWrite (s : State) : State := { s with status := s.status.dropped }

/-- The end of a command that succeeded: `complete(NONE)` (44_control.md R192). -/
def succeed (s : State) : StepResult := .next (s.complete .none)

/-- `raise Error(code)`: the command "makes no change except the completion" with that code
(00_scope.md R15, 44_control.md R194). -/
def raiseError (code : ErrCode) (s : State) : StepResult := .next (s.complete code)

/-- The end of a scalar command: RESULT is written and the command succeeds (10_state.md R37). -/
def finishResult (v : Word) (s : State) : StepResult := succeed (s.writeResult v)

/-- The end of a State command: STATE is written in place and the command succeeds (10_state.md R39). -/
def finishBlock (b : Block) (s : State) : StepResult := succeed (s.writeBlock b)

/-- "on reset": every register takes its reset value and SCHED is unspecified, so each of its words takes a
fresh free value (70_reset_and_hazards.md R230, R231; log entries 1 and 4). A command in flight is abandoned,
because BUSY becomes 0. What the outside holds is no register of the device and stays. -/
def State.applyReset (s : State) : State :=
  { s with
    ctrl := State.reset.ctrl
    status := State.reset.status
    opa := State.reset.opa
    opb := State.reset.opb
    result := State.reset.result
    key := State.reset.key
    state := State.reset.state
    pend := State.reset.pend
    sched := Vector.ofFn fun i : Fin 60 => Config.freeWord (s.draws + i.val)
    schedInit := 0
    draws := s.draws + 60
    inReset := true }

end Sys2Proof.Machine
end

