-- ==== Sys2Proof/Machine/Control.lean ====
section
/-! DEFINITION. The one control command, NOP (spec/44_control.md R195). -/

namespace Sys2Proof.Machine

/-- NOP: "nothing; the command completes by rule R193 with ERR = 0" (44_control.md R195). -/
def execNop (s : State) : StepResult := succeed s

end Sys2Proof.Machine
end

