-- ==== Sys2Proof/Machine/Galois.lean ====
section
/-! DEFINITION. Galois-field arithmetic and the column mixers, and the six scalar commands that expose them
(spec/40_gf_arith.md). -/

namespace Sys2Proof.Machine

/-- `gadd(a, b) = a ^ b` (40_gf_arith.md R101). -/
def gadd (a b : Byte) : Byte := a ^^^ b

/-- `xtime(a)`, the source's `double(a)`: shift left one bit, and fold a discarded 1 back with 0x1b
(40_gf_arith.md R102). -/
def xtime (a : Byte) : Byte :=
  let t := a <<< 1
  if a.getLsbD 7 then t ^^^ 0x1b#8 else t

/-- `gtriple(a) = xtime(a) ^ a` (40_gf_arith.md R103). -/
def gtriple (a : Byte) : Byte := xtime a ^^^ a

/-- The loop of `gmul`: the iterations left, the operands and the accumulator (40_gf_arith.md R104). -/
def gmulLoop : Nat → Byte → Byte → Byte → Byte
  | 0, _, _, acc => acc
  | n + 1, a, b, acc =>
    if a = 0 ∨ b = 0 then acc
    else gmulLoop n (xtime a) (b >>> 1) (if b.getLsbD 0 then acc ^^^ a else acc)

/-- `gmul(a, b)`: "repeat 8 times" with early termination (40_gf_arith.md R104). -/
def gmul (a b : Byte) : Byte := gmulLoop 8 a b 0

/-- `o_r`: one row of a mixing matrix times the column (40_gf_arith.md R106). -/
def mixRow (m0 m1 m2 m3 : Byte) (c : Word) : Byte :=
  gmul m0 (byteOf c 0) ^^^ gmul m1 (byteOf c 1) ^^^ gmul m2 (byteOf c 2) ^^^ gmul m3 (byteOf c 3)

/-- `mix_column(c)`: the matrix [[2,3,1,1],[1,2,3,1],[1,1,2,3],[3,1,1,2]] (40_gf_arith.md R106). -/
def mixColumn (c : Word) : Word :=
  ofBytes (mixRow 2 3 1 1 c) (mixRow 1 2 3 1 c) (mixRow 1 1 2 3 c) (mixRow 3 1 1 2 c)

/-- `inv_mix_column(c)`: the matrix [[14,11,13,9],[9,14,11,13],[13,9,14,11],[11,13,9,14]] (40_gf_arith.md R107). -/
def invMixColumn (c : Word) : Word :=
  ofBytes (mixRow 14 11 13 9 c) (mixRow 9 14 11 13 c) (mixRow 13 9 14 11 c) (mixRow 11 13 9 14 c)

/-- GADD: `RESULT <- zext_32(gadd(OPA[7:0], OPB[7:0]))` (40_gf_arith.md R109). -/
def execGadd (s : State) : StepResult := finishResult (zext (gadd (lowByte s.opa) (lowByte s.opb))) s

/-- GDBL: `RESULT <- zext_32(xtime(OPA[7:0]))` (40_gf_arith.md R110). -/
def execGdbl (s : State) : StepResult := finishResult (zext (xtime (lowByte s.opa))) s

/-- GTPL: `RESULT <- zext_32(gtriple(OPA[7:0]))` (40_gf_arith.md R111). -/
def execGtpl (s : State) : StepResult := finishResult (zext (gtriple (lowByte s.opa))) s

/-- GMUL: `RESULT <- zext_32(gmul(OPA[7:0], OPB[7:0]))` (40_gf_arith.md R112). -/
def execGmul (s : State) : StepResult := finishResult (zext (gmul (lowByte s.opa) (lowByte s.opb))) s

/-- MIXCOL: `RESULT <- mix_column(OPA)` (40_gf_arith.md R113). -/
def execMixcol (s : State) : StepResult := finishResult (mixColumn s.opa) s

/-- INVMIXCOL: `RESULT <- inv_mix_column(OPA)` (40_gf_arith.md R114). -/
def execInvmixcol (s : State) : StepResult := finishResult (invMixColumn s.opa) s

end Sys2Proof.Machine
end

