-- ==== Sys2Proof/Machine/Substitution.lean ====
section
/-! DEFINITION. The substitution functions and the commands SUBB, INVSUBB, SUBW and WBYTE
(spec/41_substitution.md). -/

namespace Sys2Proof.Machine

/-- `sub_byte(b) = SBOX[b]` (41_substitution.md R123). -/
def subByte (b : Byte) : Byte := sbox b

/-- `inv_sub_byte(b) = INV_SBOX[b]` (41_substitution.md R123). -/
def invSubByte (b : Byte) : Byte := invSbox b

/-- `sub_word(w)`: each byte "is replaced where it stands" (41_substitution.md R124). -/
def subWord (w : Word) : Word := mapBytes subByte w

/-- `inv_sub_word(w)`: "the same with INV_SBOX" (41_substitution.md R124). -/
def invSubWord (w : Word) : Word := mapBytes invSubByte w

/-- SUBB: `RESULT <- zext_32(sub_byte(OPA[7:0]))` (41_substitution.md R126). -/
def execSubb (s : State) : StepResult := finishResult (zext (subByte (lowByte s.opa))) s

/-- INVSUBB: `RESULT <- zext_32(inv_sub_byte(OPA[7:0]))` (41_substitution.md R127). -/
def execInvsubb (s : State) : StepResult := finishResult (zext (invSubByte (lowByte s.opa))) s

/-- SUBW: `RESULT <- sub_word(OPA)` (41_substitution.md R128). -/
def execSubw (s : State) : StepResult := finishResult (subWord s.opa) s

/-- WBYTE: `RESULT <- zext_32(word_byte(OPA, IMM8))`, and OPERAND_RANGE when IMM8 > 3
(41_substitution.md R125, R129). -/
def execWbyte (index : Nat) (s : State) : StepResult :=
  if h : index < 4 then finishResult (zext (byteOf s.opa ⟨index, h⟩)) s
  else raiseError .operandRange s

end Sys2Proof.Machine
end

