-- ==== Sys2Proof/Machine/KeySchedule.lean ====
section
/-! DEFINITION. The key schedule expander and the commands ROTW and EXPAND (spec/42_key_schedule.md). -/

namespace Sys2Proof.Machine

/-- `rot_word(w)`: rotate left by one byte (42_key_schedule.md R142). -/
def rotWord (w : Word) : Word := ofBytes (byteOf w 1) (byteOf w 2) (byteOf w 3) (byteOf w 0)

/-- The word `w[i]` of `expand_key` for `i >= nk`, from `w[i-nk]` and `w[i-1]` (42_key_schedule.md R143). -/
def scheduleWord (nk i : Nat) (back prev : Word) : Word :=
  if i % nk = 0 then back ^^^ subWord (rotWord prev) ^^^ rconWord (i / nk)
  else if 6 < nk ∧ i % nk = 4 then back ^^^ subWord prev
  else back ^^^ prev

/-- The second loop of `expand_key`: append that many words, each made from those before it
(42_key_schedule.md R143). -/
def extendSchedule (nk : Nat) : Nat → List Word → List Word
  | 0, w => w
  | n + 1, w =>
    extendSchedule nk n
      (w ++ [scheduleWord nk w.length (w.getD (w.length - nk) 0) (w.getD (w.length - 1) 0)])

/-- `expand_key(K, nk)`: the key words, extended to the schedule length of the variant
(42_key_schedule.md R143). -/
def expandKey (v : Variant) (key : List Word) : List Word :=
  extendSchedule v.nk (v.words - v.nk) (key.take v.nk)

/-- ROTW: `RESULT <- rot_word(OPA)` (42_key_schedule.md R145). -/
def execRotw (s : State) : StepResult := finishResult (rotWord s.opa) s

/-- EXPAND: INVALID_KEY_LENGTH "before any write to SCHED", else the expansion of KEY[0 .. Nk-1] into SCHED
with KVAR and KEY_VALID (42_key_schedule.md R146). -/
def execExpand (s : State) : StepResult :=
  match Variant.ofKeyLen s.ctrl.keyLen with
  | none => raiseError .invalidKeyLength s
  | some v => succeed (s.writeSchedule v (expandKey v s.key.toList))

end Sys2Proof.Machine
end

