-- ==== Sys2Proof/Machine/RoundPipeline.lean ====
section
/-! DEFINITION. The round-transform pipeline and its nine commands (spec/43_round_pipeline.md). -/

namespace Sys2Proof.Machine

/-- `sub_bytes(S)` (43_round_pipeline.md R161). -/
def subBytes (b : Block) : Block := b.mapCols subWord

/-- `inv_sub_bytes(S)` (43_round_pipeline.md R161). -/
def invSubBytes (b : Block) : Block := b.mapCols invSubWord

/-- `shift_rows(S)`: `t[r][c] = s[r][(c + r) mod 4]` (43_round_pipeline.md R162); the sum is that of `Fin 4`. -/
def shiftRows (b : Block) : Block := Block.ofElems fun r c => b.elem r (c + r)

/-- `inv_shift_rows(S)`: `t[r][c] = s[r][(c - r) mod 4]` (43_round_pipeline.md R163); the difference is that of
`Fin 4`. -/
def invShiftRows (b : Block) : Block := Block.ofElems fun r c => b.elem r (c - r)

/-- `mix_columns(S)` (43_round_pipeline.md R164). -/
def mixColumns (b : Block) : Block := b.mapCols mixColumn

/-- `inv_mix_columns(S)` (43_round_pipeline.md R164). -/
def invMixColumns (b : Block) : Block := b.mapCols invMixColumn

/-- The State XORed with a round key, column by column (43_round_pipeline.md R165; 90_conflicts.md C2). -/
def addKey (b k : Block) : Block := ⟨b.c0 ^^^ k.c0, b.c1 ^^^ k.c1, b.c2 ^^^ k.c2, b.c3 ^^^ k.c3⟩

/-- `add_round_key(S, rk)` (43_round_pipeline.md R165). -/
def addRoundKey (sched : Vector Word 60) (rk : Nat) (b : Block) : Block := addKey b (roundKey sched rk)

/-- One round of `encrypt_block`: sub_bytes, shift_rows, mix_columns, add_round_key (43_round_pipeline.md R166). -/
def encryptRound (sched : Vector Word 60) (b : Block) (round : Nat) : Block :=
  addRoundKey sched round (mixColumns (shiftRows (subBytes b)))

/-- `encrypt_block(S, nr)`: rounds 1 to nr-1 between round key 0 and a final round "without mix_columns"
(43_round_pipeline.md R166; 90_conflicts.md C3). -/
def encryptBlock (sched : Vector Word 60) (nr : Nat) (b : Block) : Block :=
  addRoundKey sched nr <| shiftRows <| subBytes <|
    (List.range' 1 (nr - 1)).foldl (encryptRound sched) (addRoundKey sched 0 b)

/-- One round of `decrypt_block`: add_round_key, inv_mix_columns, inv_shift_rows, inv_sub_bytes
(43_round_pipeline.md R167). -/
def decryptRound (sched : Vector Word 60) (b : Block) (round : Nat) : Block :=
  invSubBytes (invShiftRows (invMixColumns (addRoundKey sched round b)))

/-- `decrypt_block(S, nr)`: after round key nr, rounds nr-1 down to 1, then round key 0
(43_round_pipeline.md R167). -/
def decryptBlock (sched : Vector Word 60) (nr : Nat) (b : Block) : Block :=
  addRoundKey sched 0 <|
    (List.range' 1 (nr - 1)).reverse.foldl (decryptRound sched)
      (invSubBytes (invShiftRows (addRoundKey sched nr b)))

/-- SUBBYTES: `STATE <- sub_bytes(STATE)` (43_round_pipeline.md R169). -/
def execSubbytes (s : State) : StepResult := finishBlock (subBytes s.state) s

/-- INVSUBBYTES: `STATE <- inv_sub_bytes(STATE)` (43_round_pipeline.md R170). -/
def execInvsubbytes (s : State) : StepResult := finishBlock (invSubBytes s.state) s

/-- SHIFTROWS: `STATE <- shift_rows(STATE)` (43_round_pipeline.md R171). -/
def execShiftrows (s : State) : StepResult := finishBlock (shiftRows s.state) s

/-- INVSHIFTROWS: `STATE <- inv_shift_rows(STATE)` (43_round_pipeline.md R172). -/
def execInvshiftrows (s : State) : StepResult := finishBlock (invShiftRows s.state) s

/-- MIXCOLS: `STATE <- mix_columns(STATE)` (43_round_pipeline.md R173). -/
def execMixcols (s : State) : StepResult := finishBlock (mixColumns s.state) s

/-- INVMIXCOLS: `STATE <- inv_mix_columns(STATE)` (43_round_pipeline.md R174). -/
def execInvmixcols (s : State) : StepResult := finishBlock (invMixColumns s.state) s

/-- ADDRK: NO_KEY_SCHEDULE, then OPERAND_RANGE, else `STATE <- add_round_key(STATE, IMM8)`
(43_round_pipeline.md R175; the order of the checks is 60_exceptions.md R208). -/
def execAddrk (round : Nat) (s : State) : StepResult :=
  if s.status.keyValid = false then raiseError .noKeySchedule s
  else if s.status.kvar.nr < round then raiseError .operandRange s
  else finishBlock (addRoundKey s.sched round s.state) s

/-- ENCRYPT: NO_KEY_SCHEDULE, else `STATE <- encrypt_block(STATE, Nr(KVAR))` (43_round_pipeline.md R176). -/
def execEncrypt (s : State) : StepResult :=
  if s.status.keyValid = false then raiseError .noKeySchedule s
  else finishBlock (encryptBlock s.sched s.status.kvar.nr s.state) s

/-- DECRYPT: NO_KEY_SCHEDULE, else `STATE <- decrypt_block(STATE, Nr(KVAR))` (43_round_pipeline.md R177). -/
def execDecrypt (s : State) : StepResult :=
  if s.status.keyValid = false then raiseError .noKeySchedule s
  else finishBlock (decryptBlock s.sched s.status.kvar.nr s.state) s

end Sys2Proof.Machine
end

