-- ==== Sys2Proof/Machine/Dispatch.lean ====
section
/-! DEFINITION. One arm per command: "run the pseudocode of the rule for v[7:0]" (spec/44_control.md R192). -/

namespace Sys2Proof.Machine

def exec (i : Instr) (s : State) : Host.Outcome State Fault Refusal :=
  match i with
  | .nop => Sys2Proof.Machine.execNop s
  | .gadd => Sys2Proof.Machine.execGadd s
  | .gdbl => Sys2Proof.Machine.execGdbl s
  | .gtpl => Sys2Proof.Machine.execGtpl s
  | .gmul => Sys2Proof.Machine.execGmul s
  | .mixcol => Sys2Proof.Machine.execMixcol s
  | .invmixcol => Sys2Proof.Machine.execInvmixcol s
  | .subb => Sys2Proof.Machine.execSubb s
  | .invsubb => Sys2Proof.Machine.execInvsubb s
  | .subw => Sys2Proof.Machine.execSubw s
  | .wbyte index => Sys2Proof.Machine.execWbyte index s
  | .rotw => Sys2Proof.Machine.execRotw s
  | .expand => Sys2Proof.Machine.execExpand s
  | .subbytes => Sys2Proof.Machine.execSubbytes s
  | .invsubbytes => Sys2Proof.Machine.execInvsubbytes s
  | .shiftrows => Sys2Proof.Machine.execShiftrows s
  | .invshiftrows => Sys2Proof.Machine.execInvshiftrows s
  | .mixcols => Sys2Proof.Machine.execMixcols s
  | .invmixcols => Sys2Proof.Machine.execInvmixcols s
  | .addrk round => Sys2Proof.Machine.execAddrk round s
  | .encrypt => Sys2Proof.Machine.execEncrypt s
  | .decrypt => Sys2Proof.Machine.execDecrypt s

end Sys2Proof.Machine
end

