-- ==== Sys2Proof/Machine/Engine.lean ====
section
/-! DEFINITION. The engine's step (spec/44_control.md R192). -/

namespace Sys2Proof.Machine

/-- "One atomic transition of the device": the word in PEND is decoded, an illegal one completes with
ILLEGAL_COMMAND, and a valid one runs its rule (44_control.md R192, 60_exceptions.md R205). -/
def engineStep (s : State) : StepResult :=
  match decode s.pend with
  | .ok i => exec i s
  | .illegal _ => raiseError .illegalCommand s

end Sys2Proof.Machine
end

