-- ==== Sys2Proof/Machine/Window.lean ====
section
/-! DEFINITION. The register window and the host's accesses to it (spec/10_state.md R22, 20_memory.md,
70_reset_and_hazards.md R235 and R236), and the bus address of the window (20_memory.md R61). -/

namespace Sys2Proof.Machine

/-- A register of the window, or a reserved offset (10_state.md R22). -/
inductive Reg where
  | id
  | ctrl
  | status
  | cmd
  | opa
  | opb
  | result
  | key (k : Fin 8)
  | state (j : Fin 4)
  | sched (i : Fin 60)
  | reserved
  deriving DecidableEq, Repr

/-- The register at a 4-aligned offset below 0x200 (10_state.md R22). -/
def regAt (off : Nat) : Reg :=
  if off = 0x000 then .id
  else if off = 0x004 then .ctrl
  else if off = 0x008 then .status
  else if off = 0x00C then .cmd
  else if off = 0x010 then .opa
  else if off = 0x014 then .opb
  else if off = 0x018 then .result
  else if h : 0x020 ≤ off ∧ off < 0x040 then .key ⟨(off - 0x020) / 4, by omega⟩
  else if h : 0x040 ≤ off ∧ off < 0x050 then .state ⟨(off - 0x040) / 4, by omega⟩
  else if h : 0x100 ≤ off ∧ off < 0x1F0 then .sched ⟨(off - 0x100) / 4, by omega⟩
  else .reserved

/-- The value of ID (10_state.md R23, 00_scope.md R3). -/
def idValue : Word := 0x41455301#32

/-- The value a register holds or is defined to read as; CMD and a reserved offset read 0 (10_state.md R35,
20_memory.md R64). -/
def State.held (s : State) : Reg → Word
  | .id => idValue
  | .ctrl => s.ctrl.word
  | .status => s.status.word
  | .cmd => 0
  | .opa => s.opa
  | .opb => s.opb
  | .result => s.result
  | .key k => s.key[k]
  | .state j => s.state.col j
  | .sched i => s.sched[i]
  | .reserved => 0

/-- Whether a read returns "any value": RESULT, STATE and SCHED while BUSY = 1 (70_reset_and_hazards.md R236), and
a SCHED word that no EXPAND has written since reset (R231, 10_state.md R40). -/
def State.readsAnyValue (s : State) : Reg → Bool
  | .result => s.status.busy
  | .state _ => s.status.busy
  | .sched i => s.status.busy || decide (s.schedInit ≤ i.val)
  | .id | .ctrl | .status | .cmd | .opa | .opb | .key _ | .reserved => false

/-- The value that a host read of a register returns. -/
def State.readValue (s : State) (r : Reg) : Word :=
  if s.readsAnyValue r then Config.freeWord s.draws else s.held r

/-- A host read: the value goes to the host, and "a read never changes device state" (20_memory.md R68). -/
def State.readReg (s : State) (r : Reg) : State :=
  { s with
    reads := s.readValue r :: s.reads
    draws := if s.readsAnyValue r then s.draws + 1 else s.draws }

/-- A host write to a read-write register: stored while idle, dropped while BUSY = 1 (10_state.md R22,
70_reset_and_hazards.md R235). -/
def State.store (s stored : State) : State := if s.status.busy then s.dropWrite else stored

/-- A host write of `v` to a register (10_state.md R22, R34, R35; 20_memory.md R64; 70_reset_and_hazards.md R235). -/
def State.writeReg (s : State) (r : Reg) (v : Word) : State :=
  match r with
  | .ctrl => s.store { s with ctrl := Ctrl.ofWord v }
  | .status => s.ackStatus v
  | .cmd => s.store (s.issue v)
  | .opa => s.store { s with opa := v }
  | .opb => s.store { s with opb := v }
  | .key k => s.store { s with key := s.key.set k v }
  | .state j => s.store { s with state := s.state.setCol v j }
  | .id | .result | .sched _ | .reserved => s

/-- A host access of `width` bytes at an offset. "The only legal access is a 32-bit read or write at an offset
that is a multiple of 4" (20_memory.md R62); any other in the window is a bus error (R63), and an offset outside
the window is no access to this device (R61). -/
def access (off width : Nat) (act : Reg → State) : StepResult :=
  if 0x200 ≤ off then .refused .outsideWindow
  else if width = 4 ∧ off % 4 = 0 then .next (act (regAt off))
  else .fault .busAccess

/-- The offset in the window of a bus address; `none` outside it: "offset `off` is bus address `BASE + off`"
(20_memory.md R61). -/
def windowOffset (addr : Nat) : Option Nat :=
  if Config.base ≤ addr ∧ addr < Config.base + 0x200 then some (addr - Config.base) else none

end Sys2Proof.Machine
end

