-- ==== Sys2Proof/Machine/HostOps.lean ====
section
/-! DEFINITION. A step of the host: the next operation of its list (spec/30_encoding.md R89,
70_reset_and_hazards.md R240), and which agent moves (44_control.md R192, 60_exceptions.md R211). -/

namespace Sys2Proof.Machine

/-- The names with one bound to a value; a name has at most one entry. -/
def bindName (names : List (Nat × Word)) (name : Nat) (v : Word) : List (Nat × Word) :=
  (name, v) :: names.filter fun e => e.1 != name

/-- `X name = R reg`: the host keeps the value read (30_encoding.md R89). -/
def State.keep (s : State) (name : Nat) (r : Reg) : State :=
  { s.readReg r with hostNames := bindName s.hostNames name (s.readValue r) }

/-- The effect of one host operation, in a state from whose list it has been taken (30_encoding.md R89,
70_reset_and_hazards.md R240). -/
def hostAct (op : HostOp) (s : State) : StepResult :=
  match op with
  | .read off width => access off width fun r => s.readReg r
  | .write off width v => access off width fun r => s.writeReg r v
  | .readKeep name off => access off 4 fun r => s.keep name r
  | .writeKept name off =>
    match s.hostNames.lookup name with
    | some v => access off 4 fun r => s.writeReg r v
    | none => .refused .unboundHostName
  | .wait => .next (s.readReg .status)
  | .assertReset => .next s.applyReset
  | .releaseReset => .next { s with inReset := false }

/-- What the host does while the reset input is asserted: "a model gives the host no step while reset is
asserted" (70_reset_and_hazards.md R230), so only the reset line itself can change. -/
def hostActInReset (op : HostOp) (s : State) : StepResult :=
  match op with
  | .assertReset => .next s.applyReset
  | .releaseReset => .next { s with inReset := false }
  | .read _ _ | .write _ _ _ | .readKeep _ _ | .writeKept _ _ | .wait => .fault .hostAccessInReset

/-- A step of the host: its next operation, taken from the list. A `wait` whose poll reads BUSY = 1 stays, to poll
again (30_encoding.md R89). With no operation left nothing happens: the device "does nothing until the next issue"
(60_exceptions.md R219). -/
def hostStep (s : State) : StepResult :=
  match s.hostOps with
  | [] => .next s
  | op :: rest =>
    if s.inReset then hostActInReset op { s with hostOps := rest }
    else if op = .wait ∧ s.status.busy then .next (s.readReg .status)
    else hostAct op { s with hostOps := rest }

/-- Whether the engine moves next. It "has a step exactly when BUSY = 1" (10_state.md R28); `turns` says who of the
two moves while it has one, and once `turns` is used up it is the engine, so that every issued command completes
(44_control.md R196). -/
def State.engineTurn (s : State) : Bool :=
  s.status.busy && !s.inReset && decide (s.turns.head? ≠ some .host)

/-- The choice of the next agent is used up by a step in which both agents could move. -/
def State.takeTurn (s : State) : State :=
  { s with turns := if s.status.busy then s.turns.tail else s.turns }

end Sys2Proof.Machine
end

