-- ==== Sys2Proof/Machine/Step.lean ====
section
/-! DEFINITION. One step of the device and its host: "the engine's step and the host's accesses interleave"
(spec/20_memory.md R71). -/

namespace Sys2Proof.Machine

/-- The engine's step or the host's, as the state says whose turn it is. -/
def step (s : State) : Host.Outcome State Fault Refusal :=
  if s.engineTurn then engineStep s.takeTurn else hostStep s.takeTurn

/-- The state in which the command word stands issued and the engine moves next: the effect of a host write of
the word to CMD (44_control.md R190) on a device out of reset, with the engine's turn put first (log entry 3). -/
def State.withFetchWord (s : State) (nbits w : Nat) : State :=
  { s.issue (tableWord nbits w) with inReset := false, turns := .engine :: s.turns }

end Sys2Proof.Machine
end

