-- ==== Sys2Proof/Machine/Asm.lean ====
section
/-! DEFINITION. The notations of spec/30_encoding.md: the assembler (R88), the host programs with their
pseudo-operations written out as lists of host operations (R89), and a host access by its bus address
(20_memory.md R61). -/

namespace Sys2Proof.Machine

/-- The mnemonic of a command (30_encoding.md R84). -/
def mnemonic : Instr → String
  | .nop => "NOP"
  | .gadd => "GADD"
  | .gdbl => "GDBL"
  | .gtpl => "GTPL"
  | .gmul => "GMUL"
  | .mixcol => "MIXCOL"
  | .invmixcol => "INVMIXCOL"
  | .subb => "SUBB"
  | .invsubb => "INVSUBB"
  | .subw => "SUBW"
  | .wbyte _ => "WBYTE"
  | .rotw => "ROTW"
  | .expand => "EXPAND"
  | .subbytes => "SUBBYTES"
  | .invsubbytes => "INVSUBBYTES"
  | .shiftrows => "SHIFTROWS"
  | .invshiftrows => "INVSHIFTROWS"
  | .mixcols => "MIXCOLS"
  | .invmixcols => "INVMIXCOLS"
  | .addrk _ => "ADDRK"
  | .encrypt => "ENCRYPT"
  | .decrypt => "DECRYPT"

/-- The format N commands, each with its mnemonic (30_encoding.md R84). -/
def plainCommands : List Instr :=
  [.nop, .gadd, .gdbl, .gtpl, .gmul, .mixcol, .invmixcol, .subb, .invsubb, .subw, .rotw, .expand,
   .subbytes, .invsubbytes, .shiftrows, .invshiftrows, .mixcols, .invmixcols, .encrypt, .decrypt]

/-- The command that a mnemonic and its immediate name; an unknown mnemonic, an immediate on a format N mnemonic, a
missing one on format I and one outside 0 to 255 are assembly errors (30_encoding.md R88). -/
def assembleInstr (m : String) (imm : Option Nat) : Option Instr :=
  match imm with
  | none => plainCommands.find? fun i => mnemonic i == m
  | some n =>
    if 255 < n then none
    else if m == "WBYTE" then some (.wbyte n)
    else if m == "ADDRK" then some (.addrk n)
    else none

/-- The value of a digit in base 16. -/
def digitValue (c : Char) : Option Nat :=
  if '0' ≤ c ∧ c ≤ '9' then some (c.toNat - '0'.toNat)
  else if 'a' ≤ c ∧ c ≤ 'f' then some (c.toNat - 'a'.toNat + 10)
  else if 'A' ≤ c ∧ c ≤ 'F' then some (c.toNat - 'A'.toNat + 10)
  else none

/-- The number that digits in a base name after a number already read. -/
def digitsValue (base : Nat) : Nat → List Char → Option Nat
  | acc, [] => some acc
  | acc, c :: cs =>
    match digitValue c with
    | some d => if d < base then digitsValue base (base * acc + d) cs else none
    | none => none

/-- An immediate "in decimal or in hexadecimal with a `0x` prefix" (30_encoding.md R88). -/
def parseImmediate : List Char → Option Nat
  | '0' :: 'x' :: c :: cs => digitsValue 16 0 (c :: cs)
  | c :: cs => digitsValue 10 0 (c :: cs)
  | [] => none

/-- The word that a mnemonic and the text of its immediate assemble to; `none` is an assembly error
(30_encoding.md R88). -/
def assemble (m : String) (operand : Option String) : Option Word :=
  match operand with
  | none => (assembleInstr m none).map encode
  | some t =>
    match parseImmediate t.toList with
    | some n => (assembleInstr m (some n)).map encode
    | none => none

/-- `off(reg)`, the offset that a register name stands for (10_state.md R22, 30_encoding.md R89). A reserved
offset has no name; the first of them stands for it here. -/
def Reg.offset : Reg → Nat
  | .id => 0x000
  | .ctrl => 0x004
  | .status => 0x008
  | .cmd => 0x00C
  | .opa => 0x010
  | .opb => 0x014
  | .result => 0x018
  | .key k => 0x020 + 4 * k.val
  | .state j => 0x040 + 4 * j.val
  | .sched i => 0x100 + 4 * i.val
  | .reserved => 0x01C

/-- `W reg, v` (30_encoding.md R89). -/
def opW (r : Reg) (v : Word) : List HostOp := [.write r.offset 4 v]

/-- `R reg` (30_encoding.md R89). -/
def opR (r : Reg) : List HostOp := [.read r.offset 4]

/-- `.word v`: `W CMD, v` with a raw command word (30_encoding.md R89). -/
def opWord (v : Word) : List HostOp := opW .cmd v

/-- `C m [i]`: `W CMD, enc(m, i)` (30_encoding.md R89); `none` where the mnemonic and the immediate are an assembly error,
so that "only a raw `.word` can write an illegal command" (R88). -/
def opC (m : String) (imm : Option Nat) : Option (List HostOp) :=
  (assembleInstr m imm).map fun i => opW .cmd (encode i)

/-- `WAIT` (30_encoding.md R89). -/
def opWait : List HostOp := [.wait]

/-- `X name = R reg` (30_encoding.md R89). -/
def opX (name : Nat) (r : Reg) : List HostOp := [.readKeep name r.offset]

/-- `W reg, name`, of a value kept by `X` (30_encoding.md R89). -/
def opWKept (r : Reg) (name : Nat) : List HostOp := [.writeKept name r.offset]

/-- `LDKEY k0, ..., k(n-1)`: writes of KEY[0], KEY[1] and so on (30_encoding.md R89). For more than eight words the spec
is silent, since there is no KEY[8] (10_state.md R22); the writes go on at 0x020 + 4k, into STATE[0] and beyond (log
entry 17, DESIGN CHOICE). -/
def opLdKey (ks : List Word) : List HostOp := ks.mapIdx fun k v => .write (0x020 + 4 * k) 4 v

/-- `LDST s0, s1, s2, s3` (30_encoding.md R89). -/
def opLdSt (b : Block) : List HostOp :=
  opW (.state 0) b.c0 ++ opW (.state 1) b.c1 ++ opW (.state 2) b.c2 ++ opW (.state 3) b.c3

/-- Pieces of a host program, one after the other; an assembly error in any of them is one of the whole
(30_encoding.md R88, R89; log entry 14, DEDUCED). -/
def joinOps : List (Option (List HostOp)) → Option (List HostOp)
  | [] => some []
  | none :: _ => none
  | some ops :: rest => (joinOps rest).map fun more => ops ++ more

/-- `FOR r = a .. b { ops }`: `ops` written out once for each `r`, "nothing if `a > b`" (30_encoding.md R89); an
assembly error for any `r` is one of the whole (R88). -/
def opFor (a b : Nat) (ops : Nat → Option (List HostOp)) : Option (List HostOp) :=
  joinOps ((List.range' a (b + 1 - a)).map ops)

/-- The host read at a bus address; `none` where the address is not in this device's window (20_memory.md R61). -/
def busRead (addr width : Nat) : Option HostOp := (windowOffset addr).map fun off => .read off width

/-- The host write at a bus address; `none` where the address is not in this device's window (20_memory.md R61). -/
def busWrite (addr width : Nat) (v : Word) : Option HostOp := (windowOffset addr).map fun off => .write off width v

end Sys2Proof.Machine
end

