-- ==== Sys2Proof/Safety.lean ====
section
/-! DEFINITION. What counts as a safe state and a safe run, in the terms of the statements: the relations between
the fields that every step keeps, and the host's one duty (spec/70_reset_and_hazards.md R237). -/

namespace Sys2Proof.Machine

/-- Every register of R230 holds its reset value, and no schedule word counts as written. -/
def State.AtReset (s : State) : Prop :=
  s.ctrl = State.reset.ctrl ∧ s.status = State.reset.status ∧ s.opa = 0 ∧ s.opb = 0 ∧ s.result = 0 ∧
    s.key = State.reset.key ∧ s.state = State.reset.state ∧ s.pend = 0 ∧ s.schedInit = 0

/-- The relations between the fields of a reachable state. -/
structure State.Inv (s : State) : Prop where
  /-- A command in flight has DONE = 0 and ERR = 0 (44_control.md R190, R193). -/
  inFlight : s.status.busy = true → s.status.done = false ∧ s.status.err = .none
  /-- KEY_VALID = 1 exactly when some EXPAND has written SCHED since reset (10_state.md R30). -/
  residentIff : s.status.keyValid = true ↔ 0 < s.schedInit
  /-- Every word of the resident schedule has been written (10_state.md R40). -/
  residentWords : s.status.keyValid = true → s.status.kvar.words ≤ s.schedInit
  /-- KVAR keeps its reset value until a schedule is resident (10_state.md R31). -/
  noVariant : s.status.keyValid = false → s.status.kvar = .aes128
  /-- No more words count as written than SCHED has (10_state.md R22). -/
  initBound : s.schedInit ≤ 60
  /-- While the reset input is asserted every register holds its reset value (70_reset_and_hazards.md R230). -/
  heldInReset : s.inReset = true → s.AtReset
  /-- The host keeps one value under each name. -/
  namesDistinct : (s.hostNames.map Prod.fst).Nodup

/-- The resident schedule is an expanded key: each word from `Nk` on follows from the words before it by the
recurrence (42_key_schedule.md R143). -/
def State.ScheduleExpanded (s : State) : Prop :=
  s.status.keyValid = true → ∀ i, s.status.kvar.nk ≤ i → i < s.status.kvar.words →
    schedWord s.sched i =
      scheduleWord s.status.kvar.nk i (schedWord s.sched (i - s.status.kvar.nk)) (schedWord s.sched (i - 1))

/-- The registers that the host must not read while BUSY = 1 (70_reset_and_hazards.md R237). -/
def Reg.readNeedsIdle : Reg → Bool
  | .result | .state _ | .sched _ => true
  | .id | .ctrl | .status | .cmd | .opa | .opb | .key _ | .reserved => false

/-- The registers that the host must not write while BUSY = 1: the operand registers and CMD
(70_reset_and_hazards.md R237). -/
def Reg.writeNeedsIdle : Reg → Bool
  | .ctrl | .cmd | .opa | .opb | .key _ | .state _ => true
  | .id | .status | .result | .sched _ | .reserved => false

/-- The operation keeps the host's duty in a state with BUSY = 1 (70_reset_and_hazards.md R237). -/
def HostOp.keepsDuty : HostOp → Bool
  | .read off _ | .readKeep _ off => !(regAt off).readNeedsIdle
  | .write off _ _ | .writeKept _ off => !(regAt off).writeNeedsIdle
  | .wait | .assertReset | .releaseReset => true

/-- The host's next operation keeps its duty: "its one duty for correctness is to wait"
(70_reset_and_hazards.md R237). -/
def State.hostDutiful (s : State) : Bool :=
  match s.hostOps with
  | [] => true
  | op :: _ => !s.status.busy || op.keepsDuty

end Sys2Proof.Machine
end

