-- ==== Sys2Proof/Certificates/Slice0/Obligations.lean ====
section
/-! DEFINITION. The statements for the provers, file by file of the spec. Each docstring names the rules it
formalises. The helpers below are written from the spec's words, apart from the model's own definitions, so that a
statement says something about them. -/

namespace Sys2Proof.Statement

open Sys2Proof.Machine

/-- STATUS after a command has ended with a code: only BUSY, DONE and ERR are written (44_control.md R193). -/
def ended (t : Status) (code : ErrCode) : Status := { t with err := code, busy := false, done := true }

/-- The state after a command has ended with a code and no other effect (44_control.md R194). -/
def failed (s : State) (code : ErrCode) : State := { s with status := ended s.status code }

/-- The state after a command has written RESULT and succeeded; every other register is as before. -/
def withResult (s : State) (v : Word) : State := { s with result := v, status := ended s.status .none }

/-- The state after a command has written STATE and succeeded; every other register is as before. -/
def withBlock (s : State) (b : Block) : State := { s with state := b, status := ended s.status .none }

/-- The state with a command word in PEND. -/
def pending (w : Word) (s : State) : State := { s with pend := w }

/-- The word in PEND ends with ILLEGAL_COMMAND "with no other effect" (60_exceptions.md R205). -/
def EndsIllegal (w : Word) : Prop :=
  ∀ s, engineStep (pending w s) = .next (failed (pending w s) .illegalCommand)

/-- The encoding of a format N command: the one word with IMM8 and RSV 0; with either nonzero the word is illegal
(30_encoding.md R82, R86). -/
def EncodedN (op : BitVec 8) (i : Instr) : Prop :=
  decode (op.setWidth 32) = .ok i ∧ ∀ w : Word, w.setWidth 8 = op → w ≠ op.setWidth 32 → EndsIllegal w

/-- The encoding of a format I command: IMM8 in bits [15:8]; with RSV nonzero the word is illegal
(30_encoding.md R82, R86). -/
def EncodedI (op : BitVec 8) (i : Nat → Instr) : Prop :=
  (∀ n, n ≤ 255 → decode (op.setWidth 32 ||| BitVec.ofNat 32 n <<< 8) = .ok (i n)) ∧
    ∀ w : Word, w.setWidth 8 = op → w.extractLsb' 16 16 ≠ 0 → EndsIllegal w

/-- Twice a polynomial of degree at most 7, reduced by `x^8 + x^4 + x^3 + x + 1`, the number 0x11B
(40_gf_arith.md R100). -/
def doubled (a : Word) : Word :=
  let t := a <<< 1
  if t.getLsbD 8 then t ^^^ 0x11b#32 else t

/-- The product of two polynomials of degree at most 7 over GF(2), unreduced. -/
def polyProduct (a b : Word) : Word :=
  (List.range 8).foldl (fun acc i => if b.getLsbD i then acc ^^^ a <<< i else acc) 0

/-- The remainder of a polynomial of degree at most 14 modulo `x^8 + x^4 + x^3 + x + 1`. -/
def polyRemainder (p : Word) : Word :=
  [6, 5, 4, 3, 2, 1, 0].foldl (fun q k => if q.getLsbD (8 + k) then q ^^^ 0x11b#32 <<< k else q) p

/-- The product of two field elements (40_gf_arith.md R105). -/
def fieldProduct (a b : Byte) : Byte := (polyRemainder (polyProduct (a.setWidth 32) (b.setWidth 32))).setWidth 8

/-- Commands run one after the other, each on the state that the one before it leaves. -/
def runCommands : List Instr → State → StepResult
  | [], s => .next s
  | i :: is, s =>
    match exec i s with
    | .next t => runCommands is t
    | .fault f => .fault f
    | .refused r => .refused r

/-- The commands of one encryption as a host would issue them one at a time (43_round_pipeline.md R166,
95_test_vectors.md P3). -/
def encryptCommands (nr : Nat) : List Instr :=
  [.addrk 0] ++ (List.range' 1 (nr - 1)).flatMap (fun r => [.subbytes, .shiftrows, .mixcols, .addrk r])
    ++ [.subbytes, .shiftrows, .addrk nr]

/-- The commands of one decryption (43_round_pipeline.md R167). -/
def decryptCommands (nr : Nat) : List Instr :=
  [.addrk nr, .invshiftrows, .invsubbytes]
    ++ (List.range' 1 (nr - 1)).reverse.flatMap (fun r => [.addrk r, .invmixcols, .invshiftrows, .invsubbytes])
    ++ [.addrk 0]

/-- The number that digits name in a base, the most significant digit first. -/
def numberOf (base : Nat) (digits : List Nat) : Nat := digits.foldl (fun n d => base * n + d) 0

/-- A number "in decimal" (30_encoding.md R88). -/
def decimalText (digits : List Nat) : String := String.ofList (digits.map Nat.digitChar)

/-- A number "in hexadecimal with a `0x` prefix" (30_encoding.md R88); the letters are a to f. -/
def hexText (digits : List Nat) : String := String.ofList ('0' :: 'x' :: digits.map Nat.digitChar)

/-- The text names the number: in decimal or in hexadecimal, with at least one digit (30_encoding.md R88). -/
def Names (text : String) (n : Nat) : Prop :=
  (∃ digits, digits ≠ [] ∧ (∀ d ∈ digits, d < 10) ∧ numberOf 10 digits = n ∧ decimalText digits = text) ∨
    ∃ digits, digits ≠ [] ∧ (∀ d ∈ digits, d < 16) ∧ numberOf 16 digits = n ∧ hexText digits = text

/-- The host moves next, and its next operation is this one: reset is not asserted, and if a command is in flight the
turn is the host's. The list of operations and the choice of turns are the model's own (log entry 3). -/
def HostNext (s : State) (op : HostOp) (rest : List HostOp) : Prop :=
  s.hostOps = op :: rest ∧ s.inReset = false ∧ (s.status.busy = true → s.turns.head? = some .host)

/-- The state with the host's operation, and with it the turn, used up: the model's own part of a host step, which
touches no register of the device (log entry 3). -/
def used (s : State) (rest : List HostOp) : State :=
  { s with hostOps := rest, turns := if s.status.busy then s.turns.tail else s.turns }

/-- The offsets of CTRL, CMD, OPA, OPB, KEY[k] and STATE[j] (10_state.md R22). -/
def WritableOffset (off : Nat) : Prop :=
  off = 0x004 ∨ off = 0x00C ∨ off = 0x010 ∨ off = 0x014 ∨
    (∃ k, k < 8 ∧ off = 0x020 + 4 * k) ∨ (∃ j, j < 4 ∧ off = 0x040 + 4 * j)

/-- The offsets of ID, RESULT and SCHED[i] (10_state.md R22). -/
def ReadOnlyOffset (off : Nat) : Prop := off = 0x000 ∨ off = 0x018 ∨ ∃ i, i < 60 ∧ off = 0x100 + 4 * i

/-- The reserved offsets: 0x01C, 0x050 to 0x0FC, 0x1F0 to 0x1FC (20_memory.md R64). -/
def ReservedOffset (off : Nat) : Prop :=
  off % 4 = 0 ∧ (off = 0x01C ∨ (0x050 ≤ off ∧ off ≤ 0x0FC) ∨ (0x1F0 ≤ off ∧ off ≤ 0x1FC))

/-- The scalar commands, those that write RESULT (10_state.md R37). -/
def scalar : Instr → Bool
  | .gadd | .gdbl | .gtpl | .gmul | .mixcol | .invmixcol | .subb | .invsubb | .subw | .wbyte _ | .rotw => true
  | .nop | .expand | .subbytes | .invsubbytes | .shiftrows | .invshiftrows | .mixcols | .invmixcols | .addrk _
  | .encrypt | .decrypt => false

/-- The scalar commands whose result is one byte (10_state.md R36, R37). -/
def byteValued : Instr → Bool
  | .gadd | .gdbl | .gtpl | .gmul | .subb | .invsubb | .wbyte _ => true
  | .mixcol | .invmixcol | .subw | .rotw | .nop | .expand | .subbytes | .invsubbytes | .shiftrows | .invshiftrows
  | .mixcols | .invmixcols | .addrk _ | .encrypt | .decrypt => false

/-- The commands of 43_round_pipeline.md, those that write STATE (10_state.md R39). -/
def writesState : Instr → Bool
  | .subbytes | .invsubbytes | .shiftrows | .invshiftrows | .mixcols | .invmixcols | .addrk _ | .encrypt
  | .decrypt => true
  | .nop | .gadd | .gdbl | .gtpl | .gmul | .mixcol | .invmixcol | .subb | .invsubb | .subw | .wbyte _ | .rotw
  | .expand => false

end Sys2Proof.Statement

open Sys2Proof Sys2Proof.Machine Sys2Proof.Statement

/-! ### Encoding (30_encoding.md) -/

/-- Words written out from the encoding read as the commands they stand for, one of each group of opcodes
(30_encoding.md R81, R84). -/
def Obligations.WrittenOutWordsDecode : Prop :=
  decode 0b00000000000000000000000000000000#32 = .ok .nop ∧
    decode 0b00000000000000000000000000010011#32 = .ok .gmul ∧
    decode 0b00000000000000000000001000100011#32 = .ok (.wbyte 2) ∧
    decode 0b00000000000000000000000000110001#32 = .ok .expand ∧
    decode 0b00000000000000000000101001000110#32 = .ok (.addrk 10) ∧
    decode 0b00000000000000000000000001010001#32 = .ok .decrypt

/-- The decoder and the encoder are inverse: a word reads as an instruction exactly when the instruction is well
formed and the word is its encoding (30_encoding.md R84, R86, R88). -/
def Obligations.DecodeAndEncodeInverse : Prop :=
  ∀ (w : Word) (i : Instr), decode w = .ok i ↔ i.wf = true ∧ encode i = w

/-- The validity rule R86 with the reserved opcodes of R87: a valid word reads as an instruction, and every other
word ends with ILLEGAL_COMMAND and no other effect. -/
def Obligations.InvalidWordsEndIllegal : Prop :=
  (∀ w : Word, w.extractLsb' 16 16 = 0 →
      (w.setWidth 8).toNat ∈ [0x00, 0x10, 0x11, 0x12, 0x13, 0x14, 0x15, 0x20, 0x21, 0x22, 0x23, 0x30, 0x31, 0x40, 0x41,
        0x42, 0x43, 0x44, 0x45, 0x46, 0x50, 0x51] →
      ((w.setWidth 8).toNat ∈ [0x23, 0x46] ∨ w.extractLsb' 8 8 = 0) → ∃ i, decode w = .ok i) ∧
    (∀ w : Word, w.extractLsb' 16 16 ≠ 0 → EndsIllegal w) ∧
    (∀ w : Word, w.extractLsb' 8 8 ≠ 0 → (w.setWidth 8).toNat ∉ [0x23, 0x46] → EndsIllegal w) ∧
    (∀ w : Word, ((0x01 ≤ (w.setWidth 8).toNat ∧ (w.setWidth 8).toNat ≤ 0x0F) ∨
        (0x16 ≤ (w.setWidth 8).toNat ∧ (w.setWidth 8).toNat ≤ 0x1F) ∨
        (0x24 ≤ (w.setWidth 8).toNat ∧ (w.setWidth 8).toNat ≤ 0x2F) ∨
        (0x32 ≤ (w.setWidth 8).toNat ∧ (w.setWidth 8).toNat ≤ 0x3F) ∨
        (0x47 ≤ (w.setWidth 8).toNat ∧ (w.setWidth 8).toNat ≤ 0x4F) ∨
        (0x52 ≤ (w.setWidth 8).toNat ∧ (w.setWidth 8).toNat ≤ 0xFF)) → EndsIllegal w)

/-- The assembler: it emits only valid words and the one that the mnemonic and the immediate name, the immediate as the
number that its decimal or hexadecimal text names; and it refuses an immediate on a format N mnemonic, a missing one on
format I and one above 255 (30_encoding.md R88). `C m [i]` is one write to CMD of the word that the mnemonic and the
immediate name, and writes no illegal word; `FOR` writes its operations out for each number from `a` to `b`, and nothing if
`a > b` (R88, R89). That leading zeros are taken, and that an error in one operation of a `FOR` is one of the whole, is log
entry 14. -/
def Obligations.AssemblerEmitsTheNamedCommand : Prop :=
  (∀ m operand w, assemble m operand = some w → ∃ i, decode w = .ok i ∧ mnemonic i = m) ∧
    (∀ i : Instr, i.format = .n → assemble (mnemonic i) none = some (encode i)) ∧
    (∀ i : Instr, i.format = .i → i.wf = true → assembleInstr (mnemonic i) (some i.immediate) = some i) ∧
    (∀ (i : Instr) (n : Nat), i.format = .n → assembleInstr (mnemonic i) (some n) = none) ∧
    (∀ i : Instr, i.format = .i → assembleInstr (mnemonic i) none = none) ∧
    (∀ (m : String) (n : Nat), 255 < n → assembleInstr m (some n) = none) ∧
    (∀ (i : Instr) (text : String), i.format = .i → i.wf = true → Names text i.immediate →
      assemble (mnemonic i) (some text) = some (encode i)) ∧
    (∀ (i : Instr) (text : String), i.format = .n → assemble (mnemonic i) (some text) = none) ∧
    (∀ i : Instr, i.format = .i → assemble (mnemonic i) none = none) ∧
    (∀ (m text : String) (n : Nat), Names text n → 255 < n → assemble m (some text) = none) ∧
    (∀ m imm ops, opC m imm = some ops → ∃ w i, ops = [.write 0x00C 4 w] ∧ decode w = .ok i ∧ mnemonic i = m) ∧
    (∀ i : Instr, i.wf = true →
      opC (mnemonic i) (if i.format = .i then some i.immediate else none) = some [.write 0x00C 4 (encode i)]) ∧
    (∀ (m : String) (n : Nat), 255 < n → opC m (some n) = none) ∧
    (∀ m imm, assembleInstr m imm = none → opC m imm = none) ∧
    (∀ (a b : Nat) (f : Nat → List HostOp),
      (b < a → opFor a b (fun r => some (f r)) = some []) ∧
        (a ≤ b → opFor a b (fun r => some (f r)) =
          (opFor (a + 1) b fun r => some (f r)).map fun rest => f a ++ rest)) ∧
    ∀ (a b r : Nat) (ops : Nat → Option (List HostOp)), a ≤ r → r ≤ b → ops r = none → opFor a b ops = none

/-! ### Issue, execution and completion (44_control.md) -/

/-- A step of the engine runs the instruction that PEND decodes to, on the state with its turn used up, and an illegal
word ends with ILLEGAL_COMMAND; `withFetchWord` makes that the next step (44_control.md R192). Turns and `withFetchWord`
are the model's own (log entry 3). -/
def Obligations.EngineTurnRunsThePendingCommand : Prop :=
  (∀ (s : State) (i : Instr), s.status.busy = true → s.inReset = false → s.turns.head? ≠ some .host →
      decode s.pend = .ok i → step s = exec i { s with turns := s.turns.tail }) ∧
    (∀ (s : State) (r : Reject), s.status.busy = true → s.inReset = false → s.turns.head? ≠ some .host →
      decode s.pend = .illegal r → step s = .next (failed { s with turns := s.turns.tail } .illegalCommand)) ∧
    (∀ (s : State) (nbits w : Nat) (i : Instr), decodeTableWord nbits w = some i →
      step (s.withFetchWord nbits w) =
        exec i { s with
          pend := tableWord nbits w, inReset := false
          status := { s.status with busy := true, done := false, err := .none } })

/-- The issue: PEND, BUSY, DONE and ERR are written, nothing else changes, whatever the word, and `irq` is low
(44_control.md R190). -/
def Obligations.IssueLatchesTheCommand : Prop :=
  ∀ (s : State) (v : Word) (rest : List HostOp), HostNext s (.write 0x00C 4 v) rest → s.status.busy = false →
    ∃ t, step s = .next t ∧ t.irq = false ∧
      t = { used s rest with
        pend := v, status := { s.status with busy := true, done := false, err := .none } }

/-- Every command completes, and its completion leaves BUSY = 0, DONE = 1 and `irq` equal to IRQ_EN; so does every
word that PEND can hold (44_control.md R193, R196). -/
def Obligations.EveryIssuedWordCompletes : Prop :=
  (∀ (i : Instr) (s : State), ∃ t, exec i s = .next t ∧ t.status.busy = false ∧ t.status.done = true ∧
      t.irq = s.ctrl.irqEn) ∧
    ∀ s : State, ∃ t, engineStep s = .next t ∧ t.status.busy = false ∧ t.status.done = true ∧ t.irq = s.ctrl.irqEn

/-- An engine step that reports an error changes nothing but STATUS.ERR, BUSY and DONE (44_control.md R194). -/
def Obligations.FailingCommandChangesOnlyStatus : Prop :=
  ∀ s t : State, engineStep s = .next t → t.status.err ≠ .none → t = failed s t.status.err

/-- NOP: the completion and nothing else (44_control.md R195). -/
def Obligations.NopOnlyCompletes : Prop :=
  EncodedN 0x00#8 .nop ∧ ∀ s : State, exec .nop s = .next (failed s .none)

/-! ### Galois-field arithmetic (40_gf_arith.md) -/

/-- GADD: the low bytes of OPA and OPB, exclusive-or, zero-extended (40_gf_arith.md R109). -/
def Obligations.GaddXorsTheLowBytes : Prop :=
  EncodedN 0x10#8 .gadd ∧ ∀ s : State, exec .gadd s = .next (withResult s ((s.opa ^^^ s.opb) &&& 0xff#32))

/-- GDBL: the low byte of OPA doubled modulo 0x11B (40_gf_arith.md R110). -/
def Obligations.GdblDoublesTheLowByte : Prop :=
  EncodedN 0x11#8 .gdbl ∧ ∀ s : State, exec .gdbl s = .next (withResult s (doubled (s.opa &&& 0xff#32)))

/-- GTPL: the low byte of OPA times 3 (40_gf_arith.md R111). -/
def Obligations.GtplTriplesTheLowByte : Prop :=
  EncodedN 0x12#8 .gtpl ∧
    ∀ s : State, exec .gtpl s = .next (withResult s (doubled (s.opa &&& 0xff#32) ^^^ (s.opa &&& 0xff#32)))

/-- GMUL: the product of the low bytes of OPA and OPB as polynomials, modulo 0x11B (40_gf_arith.md R112). -/
def Obligations.GmulIsThePolynomialProduct : Prop :=
  EncodedN 0x13#8 .gmul ∧
    ∀ s : State, exec .gmul s =
      .next (withResult s (polyRemainder (polyProduct (s.opa &&& 0xff#32) (s.opb &&& 0xff#32))))

/-- The laws of `gmul` for every pair (40_gf_arith.md R105). -/
def Obligations.FieldMultiplicationLaws : Prop :=
  ∀ a b : Byte, gmul a b = fieldProduct a b ∧ gmul a b = gmul b a ∧ gmul a (xtime 1) = xtime a ∧
    gmul a 0x02 = xtime a ∧ gmul a 0x03 = gtriple a ∧ gmul a 0x01 = a ∧ gmul a 0x00 = 0 ∧ gmul 0x00 a = 0

/-- MIXCOL: the four rows of the forward matrix, written out; a column of four equal bytes is fixed
(40_gf_arith.md R113, by the formulas of R106). -/
def Obligations.MixcolMultipliesByTheMatrix : Prop :=
  EncodedN 0x14#8 .mixcol ∧
    (∀ (s : State) (c0 c1 c2 c3 : Byte), s.opa = c0 ++ c1 ++ c2 ++ c3 →
      exec .mixcol s = .next (withResult s
        ((xtime c0 ^^^ gtriple c1 ^^^ c2 ^^^ c3) ++ (c0 ^^^ xtime c1 ^^^ gtriple c2 ^^^ c3) ++
          (c0 ^^^ c1 ^^^ xtime c2 ^^^ gtriple c3) ++ (gtriple c0 ^^^ c1 ^^^ c2 ^^^ xtime c3)))) ∧
    ∀ (s : State) (b : Byte), s.opa = b ++ b ++ b ++ b → exec .mixcol s = .next (withResult s s.opa)

/-- INVMIXCOL: the four rows of the inverse matrix, written out; a column of four equal bytes is fixed, and MIXCOL's
result goes back to the original column (40_gf_arith.md R114, by the matrix of R107). -/
def Obligations.InvmixcolMultipliesByTheInverseMatrix : Prop :=
  EncodedN 0x15#8 .invmixcol ∧
    (∀ (s : State) (c0 c1 c2 c3 : Byte), s.opa = c0 ++ c1 ++ c2 ++ c3 →
      exec .invmixcol s = .next (withResult s
        ((gmul 0x0e c0 ^^^ gmul 0x0b c1 ^^^ gmul 0x0d c2 ^^^ gmul 0x09 c3) ++
          (gmul 0x09 c0 ^^^ gmul 0x0e c1 ^^^ gmul 0x0b c2 ^^^ gmul 0x0d c3) ++
          (gmul 0x0d c0 ^^^ gmul 0x09 c1 ^^^ gmul 0x0e c2 ^^^ gmul 0x0b c3) ++
          (gmul 0x0b c0 ^^^ gmul 0x0d c1 ^^^ gmul 0x09 c2 ^^^ gmul 0x0e c3)))) ∧
    (∀ (s : State) (b : Byte), s.opa = b ++ b ++ b ++ b → exec .invmixcol s = .next (withResult s s.opa)) ∧
    ∀ s : State, ∃ t u, exec .mixcol s = .next t ∧ exec .invmixcol { t with opa := t.result } = .next u ∧ u.result = s.opa

/-- The two mixers undo each other on every column, as commands with RESULT moved to OPA between them
(40_gf_arith.md R108). -/
def Obligations.MixersUndoEachOther : Prop :=
  ∀ s : State,
    (∃ t u, exec .mixcol s = .next t ∧ exec .invmixcol { t with opa := t.result } = .next u ∧ u.result = s.opa) ∧
    (∃ t u, exec .invmixcol s = .next t ∧ exec .mixcol { t with opa := t.result } = .next u ∧ u.result = s.opa)

/-! ### Substitution (41_substitution.md) -/

/-- SUBB: the affine map of the multiplicative inverse of the low byte of OPA, with constant 0x63, which is how R122
characterises the table; and the corner values of R126. -/
def Obligations.SubbIsTheAffineMapOfTheInverse : Prop :=
  EncodedN 0x20#8 .subb ∧
    (∀ s : State, ∃ b : Byte, (s.opa.setWidth 8 = 0#8 → b = 0) ∧
      (s.opa.setWidth 8 ≠ 0#8 → fieldProduct (s.opa.setWidth 8) b = 1) ∧
      exec .subb s = .next (withResult s
        ((b ^^^ b.rotateRight 4 ^^^ b.rotateRight 5 ^^^ b.rotateRight 6 ^^^ b.rotateRight 7 ^^^ 0x63#8).setWidth 32))) ∧
    (∀ s : State, s.opa.setWidth 8 = 0x00#8 → exec .subb s = .next (withResult s 0x63#32)) ∧
    (∀ s : State, s.opa.setWidth 8 = 0x53#8 → exec .subb s = .next (withResult s 0xed#32)) ∧
    ∀ s : State, s.opa.setWidth 8 = 0xff#8 → exec .subb s = .next (withResult s 0x16#32)

/-- INVSUBB: the byte whose substitute is the low byte of OPA, and the corner values (41_substitution.md R127). SUBB
and INVSUBB undo each other (R123). -/
def Obligations.InvsubbUndoesSubb : Prop :=
  EncodedN 0x21#8 .invsubb ∧
    (∀ s : State, ∃ b : Byte, subByte b = s.opa.setWidth 8 ∧ exec .invsubb s = .next (withResult s (b.setWidth 32))) ∧
    (∀ s : State, ∃ t u, exec .subb s = .next t ∧ exec .invsubb { t with opa := t.result } = .next u ∧
      u.result = s.opa &&& 0xff#32) ∧
    (∀ s : State, ∃ t u, exec .invsubb s = .next t ∧ exec .subb { t with opa := t.result } = .next u ∧
      u.result = s.opa &&& 0xff#32) ∧
    (∀ s : State, s.opa.setWidth 8 = 0x63#8 → exec .invsubb s = .next (withResult s 0x00#32)) ∧
    (∀ s : State, s.opa.setWidth 8 = 0x00#8 → exec .invsubb s = .next (withResult s 0x52#32)) ∧
    ∀ s : State, s.opa.setWidth 8 = 0xff#8 → exec .invsubb s = .next (withResult s 0x7d#32)

/-- SUBW: each byte of OPA substituted where it stands; it commutes with ROTW (41_substitution.md R128). -/
def Obligations.SubwSubstitutesEachByte : Prop :=
  EncodedN 0x22#8 .subw ∧
    (∀ (s : State) (a b c d : Byte), s.opa = a ++ b ++ c ++ d →
      exec .subw s = .next (withResult s (subByte a ++ subByte b ++ subByte c ++ subByte d))) ∧
    (∀ s : State, ∃ t u t' u', exec .rotw s = .next t ∧ exec .subw { t with opa := t.result } = .next u ∧
      exec .subw s = .next t' ∧ exec .rotw { t' with opa := t'.result } = .next u' ∧ u.result = u'.result) ∧
    (∀ s : State, s.opa = 0x00000000#32 → exec .subw s = .next (withResult s 0x63636363#32)) ∧
    ∀ s : State, s.opa = 0xffffffff#32 → exec .subw s = .next (withResult s 0x16161616#32)

/-- WBYTE: the byte of OPA with the index IMM8, byte 0 the most significant; above 3, OPERAND_RANGE
(41_substitution.md R129). -/
def Obligations.WbyteExtractsOneByte : Prop :=
  EncodedI 0x23#8 .wbyte ∧
    (∀ (s : State) (i : Nat), i ≤ 3 →
      exec (.wbyte i) s = .next (withResult s ((s.opa >>> (24 - 8 * i)) &&& 0xff#32))) ∧
    ∀ (s : State) (i : Nat), 3 < i → exec (.wbyte i) s = .next (failed s .operandRange)

/-! ### Key schedule (42_key_schedule.md) -/

/-- ROTW: OPA rotated left by 8 bits; four of them in a row give OPA back (42_key_schedule.md R145). -/
def Obligations.RotwRotatesLeftOneByte : Prop :=
  EncodedN 0x30#8 .rotw ∧ (∀ s : State, exec .rotw s = .next (withResult s (s.opa.rotateLeft 8))) ∧
    ∀ s : State, ∃ t u v x, exec .rotw s = .next t ∧ exec .rotw { t with opa := t.result } = .next u ∧
      exec .rotw { u with opa := u.result } = .next v ∧ exec .rotw { v with opa := v.result } = .next x ∧
      x.result = s.opa

/-- The round constants: the ten entries, left-aligned, each the double of the one before (42_key_schedule.md R141). -/
def Obligations.RoundConstantsAreDoublings : Prop :=
  [1, 2, 3, 4, 5, 6, 7, 8, 9, 10].map rconWord =
      [0x01000000#32, 0x02000000#32, 0x04000000#32, 0x08000000#32, 0x10000000#32, 0x20000000#32, 0x40000000#32,
        0x80000000#32, 0x1b000000#32, 0x36000000#32] ∧
    ∀ j, 1 ≤ j → j ≤ 9 → byteOf (rconWord (j + 1)) 0 = xtime (byteOf (rconWord j) 0)

/-- EXPAND with a legal key length: the first Nk words of SCHED are the key, each further word of the schedule follows
the recurrence, the words above are kept, and KVAR and KEY_VALID are written; nothing else changes. With any other
length it ends with INVALID_KEY_LENGTH (42_key_schedule.md R143, R146). The count of written words is the model's own
(log entry 1). -/
def Obligations.ExpandMakesTheKeySchedule : Prop :=
  EncodedN 0x31#8 .expand ∧
    (∀ (s : State) (v : Variant), s.ctrl.keyLen.toNat = 4 * v.nk →
      ∃ w : Vector Word 60,
        exec .expand s = .next { s with
          sched := w, schedInit := max s.schedInit (4 * (v.nr + 1))
          status := { ended s.status .none with keyValid := true, kvar := v } } ∧
        (∀ i (h : i < 8), i < v.nk → schedWord w i = s.key[i]) ∧
        (∀ i, v.nk ≤ i → i < 4 * (v.nr + 1) →
          schedWord w i =
            if i % v.nk = 0 then
              schedWord w (i - v.nk) ^^^ subWord ((schedWord w (i - 1)).rotateLeft 8) ^^^ rconWord (i / v.nk)
            else if 6 < v.nk ∧ i % v.nk = 4 then schedWord w (i - v.nk) ^^^ subWord (schedWord w (i - 1))
            else schedWord w (i - v.nk) ^^^ schedWord w (i - 1)) ∧
        (∀ i (h : i < 60), 4 * (v.nr + 1) ≤ i → schedWord w i = s.sched[i])) ∧
    ∀ s : State, s.ctrl.keyLen.toNat ∉ [16, 24, 32] → exec .expand s = .next (failed s .invalidKeyLength)

/-- The schedule is a function of the key alone: EXPAND reads CTRL.KEYLEN and KEY[0 .. Nk-1] and no other register
(42_key_schedule.md R144, R146). -/
def Obligations.ScheduleDependsOnTheKeyAlone : Prop :=
  ∀ (s s' : State) (v : Variant), s.ctrl.keyLen.toNat = 4 * v.nk → s'.ctrl.keyLen = s.ctrl.keyLen →
    (∀ i (h : i < 8), i < v.nk → s'.key[i] = s.key[i]) →
    ∃ t t', exec .expand s = .next t ∧ exec .expand s' = .next t' ∧
      ∀ i, i < v.words → schedWord t'.sched i = schedWord t.sched i

/-- INVALID_KEY_LENGTH is EXPAND's alone: with any length but 16, 24 and 32 nothing is written but STATUS.ERR, DONE and
BUSY, and every other command does the same whatever KEYLEN holds (60_exceptions.md R202). -/
def Obligations.BadKeyLengthIsHarmlessUntilExpand : Prop :=
  (∀ s : State, s.ctrl.keyLen.toNat ∉ [16, 24, 32] → exec .expand s = .next (failed s .invalidKeyLength)) ∧
    (∀ (i : Instr) (s t : State), exec i s = .next t → t.status.err = .invalidKeyLength → i = .expand) ∧
    ∀ (i : Instr) (s t : State) (n : BitVec 8), i ≠ .expand → exec i s = .next t →
      exec i { s with ctrl := { s.ctrl with keyLen := n } } = .next { t with ctrl := { t.ctrl with keyLen := n } }

/-! ### Round pipeline (43_round_pipeline.md) -/

/-- SUBBYTES and INVSUBBYTES substitute each of the sixteen elements where it stands (43_round_pipeline.md R169, R170). -/
def Obligations.SubbytesSubstitutesEachElement : Prop :=
  EncodedN 0x40#8 .subbytes ∧ EncodedN 0x41#8 .invsubbytes ∧
    ∀ s : State,
      (∃ b, exec .subbytes s = .next (withBlock s b) ∧ ∀ r c, b.elem r c = subByte (s.state.elem r c)) ∧
      (∃ b, exec .invsubbytes s = .next (withBlock s b) ∧ ∀ r c, subByte (b.elem r c) = s.state.elem r c)

/-- SHIFTROWS turns row `r` left by `r` places and INVSHIFTROWS turns it right; row 0 stays, and four SHIFTROWS restore
the State (43_round_pipeline.md R171, R172). -/
def Obligations.ShiftrowsTurnsEachRow : Prop :=
  EncodedN 0x42#8 .shiftrows ∧ EncodedN 0x43#8 .invshiftrows ∧
    (∀ s : State,
      (∃ b, exec .shiftrows s = .next (withBlock s b) ∧
        ∀ r c d : Fin 4, d.val = (c.val + r.val) % 4 → b.elem r c = s.state.elem r d) ∧
      (∃ b, exec .invshiftrows s = .next (withBlock s b) ∧
        ∀ r c d : Fin 4, d.val = (c.val + 4 - r.val) % 4 → b.elem r c = s.state.elem r d)) ∧
    ∀ s : State, runCommands [.shiftrows, .shiftrows, .shiftrows, .shiftrows] s = .next (withBlock s s.state)

/-- MIXCOLS and INVMIXCOLS multiply each column by the forward and by the inverse matrix, element by element
(43_round_pipeline.md R173, R174; 40_gf_arith.md R106, R107). -/
def Obligations.MixcolsMultipliesEachColumn : Prop :=
  EncodedN 0x44#8 .mixcols ∧ EncodedN 0x45#8 .invmixcols ∧
    ∀ s : State,
      (∃ b, exec .mixcols s = .next (withBlock s b) ∧ ∀ c,
        b.elem 0 c = xtime (s.state.elem 0 c) ^^^ gtriple (s.state.elem 1 c) ^^^ s.state.elem 2 c ^^^ s.state.elem 3 c ∧
        b.elem 1 c = s.state.elem 0 c ^^^ xtime (s.state.elem 1 c) ^^^ gtriple (s.state.elem 2 c) ^^^ s.state.elem 3 c ∧
        b.elem 2 c = s.state.elem 0 c ^^^ s.state.elem 1 c ^^^ xtime (s.state.elem 2 c) ^^^ gtriple (s.state.elem 3 c) ∧
        b.elem 3 c = gtriple (s.state.elem 0 c) ^^^ s.state.elem 1 c ^^^ s.state.elem 2 c ^^^ xtime (s.state.elem 3 c)) ∧
      (∃ b, exec .invmixcols s = .next (withBlock s b) ∧ ∀ c,
        b.elem 0 c = gmul 14 (s.state.elem 0 c) ^^^ gmul 11 (s.state.elem 1 c) ^^^ gmul 13 (s.state.elem 2 c)
          ^^^ gmul 9 (s.state.elem 3 c) ∧
        b.elem 1 c = gmul 9 (s.state.elem 0 c) ^^^ gmul 14 (s.state.elem 1 c) ^^^ gmul 11 (s.state.elem 2 c)
          ^^^ gmul 13 (s.state.elem 3 c) ∧
        b.elem 2 c = gmul 13 (s.state.elem 0 c) ^^^ gmul 9 (s.state.elem 1 c) ^^^ gmul 14 (s.state.elem 2 c)
          ^^^ gmul 11 (s.state.elem 3 c) ∧
        b.elem 3 c = gmul 11 (s.state.elem 0 c) ^^^ gmul 13 (s.state.elem 1 c) ^^^ gmul 9 (s.state.elem 2 c)
          ^^^ gmul 14 (s.state.elem 3 c))

/-- ADDRK: each element of STATE XORed with the byte in its row of the round-key word of its column, which is a word of
the resident schedule; NO_KEY_SCHEDULE without one, OPERAND_RANGE above Nr (43_round_pipeline.md R165, R175). -/
def Obligations.AddrkXorsTheRoundKey : Prop :=
  EncodedI 0x46#8 .addrk ∧
    (∀ (s : State) (rk : Nat), s.status.keyValid = true → rk ≤ s.status.kvar.nr →
      ∃ b, exec (.addrk rk) s = .next (withBlock s b) ∧
        ∀ r c : Fin 4, ∃ h : 4 * rk + c.val < 60, 4 * rk + c.val < s.status.kvar.words ∧
          b.elem r c = s.state.elem r c ^^^ byteOf s.sched[4 * rk + c.val] r) ∧
    (∀ (s : State) (rk : Nat), s.status.keyValid = true → s.status.kvar.nr < rk →
      exec (.addrk rk) s = .next (failed s .operandRange)) ∧
    ∀ (s : State) (rk : Nat), s.status.keyValid = false → exec (.addrk rk) s = .next (failed s .noKeySchedule)

/-- ENCRYPT does what its rounds do when a host issues them as single commands, and changes only STATE and STATUS; it
ends with NO_KEY_SCHEDULE when no schedule is resident (43_round_pipeline.md R166, R176; 95_test_vectors.md P3). -/
def Obligations.EncryptIsItsRounds : Prop :=
  EncodedN 0x50#8 .encrypt ∧
    (∀ s : State, s.status.keyValid = true →
      ∃ b, exec .encrypt s = .next (withBlock s b) ∧
        runCommands (encryptCommands s.status.kvar.nr) s = .next (withBlock s b)) ∧
    ∀ s : State, s.status.keyValid = false → exec .encrypt s = .next (failed s .noKeySchedule)

/-- DECRYPT does what its rounds do when a host issues them as single commands, and changes only STATE and STATUS; it
ends with NO_KEY_SCHEDULE when no schedule is resident (43_round_pipeline.md R167, R177). -/
def Obligations.DecryptIsItsRounds : Prop :=
  EncodedN 0x51#8 .decrypt ∧
    (∀ s : State, s.status.keyValid = true →
      ∃ b, exec .decrypt s = .next (withBlock s b) ∧
        runCommands (decryptCommands s.status.kvar.nr) s = .next (withBlock s b)) ∧
    ∀ s : State, s.status.keyValid = false → exec .decrypt s = .next (failed s .noKeySchedule)

/-- With any resident schedule of any variant DECRYPT after ENCRYPT restores STATE, and so does ENCRYPT after DECRYPT; each
State transform and its inverse, in either order, and a round key added twice restore it too; no register changes but
STATUS. R168 of 43_round_pipeline.md states one order of each; the reverse orders follow from R108 and R123. -/
def Obligations.DecryptUndoesEncrypt : Prop :=
  (∀ s : State, s.status.keyValid = true →
      runCommands [.encrypt, .decrypt] s = .next (withBlock s s.state) ∧
        runCommands [.decrypt, .encrypt] s = .next (withBlock s s.state)) ∧
    (∀ s : State,
      runCommands [.subbytes, .invsubbytes] s = .next (withBlock s s.state) ∧
      runCommands [.invsubbytes, .subbytes] s = .next (withBlock s s.state) ∧
      runCommands [.shiftrows, .invshiftrows] s = .next (withBlock s s.state) ∧
      runCommands [.invshiftrows, .shiftrows] s = .next (withBlock s s.state) ∧
      runCommands [.mixcols, .invmixcols] s = .next (withBlock s s.state) ∧
      runCommands [.invmixcols, .mixcols] s = .next (withBlock s s.state)) ∧
    ∀ (s : State) (rk : Nat), s.status.keyValid = true → rk ≤ s.status.kvar.nr →
      runCommands [.addrk rk, .addrk rk] s = .next (withBlock s s.state)

/-- The known-answer vectors of the three variants, from reset with the key and the block written
(95_test_vectors.md L1-1, L1-3; 20_memory.md R66). -/
def Obligations.KnownAnswerVectorsHold : Prop :=
  ∀ (v : Variant) (c : Block),
    (v, c) ∈ [(Variant.aes128, Block.mk 0x69c4e0d8 0x6a7b0430 0xd8cdb780 0x70b4c55a),
      (Variant.aes192, Block.mk 0xdda97ca4 0x864cdfe0 0x6eaf70a0 0xec0d7191),
      (Variant.aes256, Block.mk 0x8ea2b7ca 0x516745bf 0xeafc4990 0x4b496089)] →
    ∃ t, runCommands [.expand, .encrypt]
        { State.reset with
          ctrl := ⟨BitVec.ofNat 8 (4 * v.nk), false⟩
          key := #v[0x00010203, 0x04050607, 0x08090a0b, 0x0c0d0e0f, 0x10111213, 0x14151617, 0x18191a1b, 0x1c1d1e1f]
          state := ⟨0x00112233, 0x44556677, 0x8899aabb, 0xccddeeff⟩ } = .next t ∧
      t.state = c ∧ t.status.err = .none

/-- ENCRYPT, DECRYPT and ADDRK read STATE, KEY_VALID, KVAR and the resident schedule, and no other register: two states
that agree on these end with the same STATE and the same code (43_round_pipeline.md R175 to R177; 90_conflicts.md C10). -/
def Obligations.CipherReadsOnlyStateAndResidentSchedule : Prop :=
  ∀ (i : Instr) (s s' : State), (i = .encrypt ∨ i = .decrypt ∨ ∃ rk, i = .addrk rk) →
    s'.state = s.state → s'.status.keyValid = s.status.keyValid → s'.status.kvar = s.status.kvar →
    (∀ n, n < s.status.kvar.words → schedWord s'.sched n = schedWord s.sched n) →
    ∃ t t', exec i s = .next t ∧ exec i s' = .next t' ∧ t'.state = t.state ∧ t'.status.err = t.status.err

/-! ### What commands leave alone (10_state.md) -/

/-- No command writes OPA, OPB, KEY or CTRL, and none changes STATUS.OVR (10_state.md R24, R32, R36, R38). The other
clauses are the model's own: a command in flight leaves PEND (R41), and that its completion does too is log entry 13; the
draws are log entry 2, the reset line log entry 4, and the host's operations, turns, reads and names log entry 3. -/
def Obligations.CommandsKeepTheOperandRegisters : Prop :=
  ∀ (i : Instr) (s t : State), exec i s = .next t →
    t.opa = s.opa ∧ t.opb = s.opb ∧ t.key = s.key ∧ t.ctrl = s.ctrl ∧ t.pend = s.pend ∧ t.status.ovr = s.status.ovr ∧
      t.inReset = s.inReset ∧ t.draws = s.draws ∧ t.hostOps = s.hostOps ∧ t.turns = s.turns ∧ t.reads = s.reads ∧
      t.hostNames = s.hostNames

/-- RESULT: only the scalar commands write it, a byte result has bits [31:8] 0, a command that fails leaves it, and of
the host's operations only reset changes it (10_state.md R37; who moves and the reset line are log entries 3 and 4). -/
def Obligations.OnlyScalarCommandsWriteResult : Prop :=
  (∀ (i : Instr) (s t : State), exec i s = .next t → scalar i = false → t.result = s.result) ∧
    (∀ (i : Instr) (s t : State), exec i s = .next t → t.status.err ≠ .none → t.result = s.result) ∧
    (∀ (i : Instr) (s t : State), exec i s = .next t → byteValued i = true → t.status.err = .none →
      t.result >>> 8 = 0) ∧
    ∀ s t : State, s.engineTurn = false → step s = .next t → t.result ≠ s.result →
      ∃ rest, s.hostOps = .assertReset :: rest

/-- STATE: only the State commands write it, and SCHED, KEY_VALID and KVAR only EXPAND
(10_state.md R30, R31, R39, R40). -/
def Obligations.OtherCommandsKeepStateAndSchedule : Prop :=
  ∀ (i : Instr) (s t : State), exec i s = .next t →
    (writesState i = false → t.state = s.state) ∧
      (i ≠ .expand → t.sched = s.sched ∧ t.schedInit = s.schedInit ∧ t.status.keyValid = s.status.keyValid ∧
        t.status.kvar = s.status.kvar)

/-- KEY_VALID is 0 at reset; a step changes it, KVAR or SCHED only if it is the engine's, of an EXPAND that ends with
ERR = 0, and then KEY_VALID becomes 1, or if reset is asserted; while it is 0, ADDRK, ENCRYPT and DECRYPT raise
NO_KEY_SCHEDULE (10_state.md R30; 20_memory.md R77; the count of written words and the reset line are the model's own,
log entries 1 and 4). -/
def Obligations.ScheduleChangesOnlyByExpandOrReset : Prop :=
  State.reset.status.keyValid = false ∧
    (∀ s t : State, step s = .next t →
      ¬(t.status.keyValid = s.status.keyValid ∧ t.status.kvar = s.status.kvar ∧ t.sched = s.sched ∧
        t.schedInit = s.schedInit) →
      (s.engineTurn = true ∧ decode s.pend = .ok .expand ∧ t.status.err = .none ∧ t.status.keyValid = true) ∨
        (s.engineTurn = false ∧ ∃ rest, s.hostOps = .assertReset :: rest)) ∧
    ∀ (s : State) (rk : Nat), s.status.keyValid = false →
      exec (.addrk rk) s = .next (failed s .noKeySchedule) ∧ exec .encrypt s = .next (failed s .noKeySchedule) ∧
        exec .decrypt s = .next (failed s .noKeySchedule)

/-! ### Errors and the interrupt (60_exceptions.md) -/

/-- One code per command, the first that applies: ILLEGAL_COMMAND before everything, then INVALID_KEY_LENGTH,
NO_KEY_SCHEDULE and OPERAND_RANGE; with the rule's two examples (60_exceptions.md R208). -/
def Obligations.ErrorsHaveOnePriority : Prop :=
  (∀ (s : State) (r : Reject), decode s.pend = .illegal r → engineStep s = .next (failed s .illegalCommand)) ∧
    (∀ s : State, s.ctrl.keyLen.toNat ∉ [16, 24, 32] → exec .expand s = .next (failed s .invalidKeyLength)) ∧
    (∀ (s : State) (rk : Nat), s.status.keyValid = false →
      exec (.addrk rk) s = .next (failed s .noKeySchedule) ∧ exec .encrypt s = .next (failed s .noKeySchedule) ∧
        exec .decrypt s = .next (failed s .noKeySchedule)) ∧
    (∀ (s : State) (rk : Nat), s.status.keyValid = true → s.status.kvar.nr < rk →
      exec (.addrk rk) s = .next (failed s .operandRange)) ∧
    (∀ (s : State) (i : Nat), 3 < i → exec (.wbyte i) s = .next (failed s .operandRange)) ∧
    (∀ s : State, s.pend = 0x0000c846#32 → s.status.keyValid = false →
      engineStep s = .next (failed s .noKeySchedule)) ∧
    ∀ s : State, s.pend = 0x00010446#32 → engineStep s = .next (failed s .illegalCommand)

/-- `irq` is IRQ_EN and DONE: low after a write of 1 to STATUS bit 1, after an issue and while reset is asserted; masked
by IRQ_EN = 0 without clearing DONE, and high again when IRQ_EN = 1 is written (60_exceptions.md R210; that reset is an
operation of the host's list is log entry 4). -/
def Obligations.IrqFollowsDoneAndItsEnable : Prop :=
  (∀ s : State, s.irq = true ↔ s.ctrl.irqEn = true ∧ s.status.done = true) ∧
    (∀ (s : State) (v : Word) (rest : List HostOp), HostNext s (.write 0x008 4 v) rest → v.getLsbD 1 = true →
      ∃ t, step s = .next t ∧ t.irq = false ∧ t.status.done = false) ∧
    (∀ (s : State) (v : Word) (rest : List HostOp), HostNext s (.write 0x00C 4 v) rest → s.status.busy = false →
      ∃ t, step s = .next t ∧ t.irq = false) ∧
    (∀ (s : State) (rest : List HostOp), HostNext s .assertReset rest → ∃ t, step s = .next t ∧ t.irq = false) ∧
    ∀ (s : State) (v : Word) (rest : List HostOp), HostNext s (.write 0x004 4 v) rest → s.status.busy = false →
      ∃ t, step s = .next t ∧ t.status.done = s.status.done ∧ t.irq = (v.getLsbD 8 && s.status.done)

/-! ### The register window (10_state.md, 20_memory.md, 70_reset_and_hazards.md) -/

/-- The fields of CTRL and STATUS in the words they read as, with the reserved bits 0, and a written CTRL read back
(10_state.md R24, R27, R31, R33). -/
def Obligations.ControlAndStatusLayout : Prop :=
  (∀ v : Word, (Ctrl.ofWord v).word = v &&& 0x1ff#32) ∧
    (∀ c : Ctrl, c.word.extractLsb' 0 8 = c.keyLen ∧ c.word.getLsbD 8 = c.irqEn ∧ c.word >>> 9 = 0) ∧
    ∀ t : Status, t.word.getLsbD 0 = t.busy ∧ t.word.getLsbD 1 = t.done ∧ t.word.getLsbD 2 = t.keyValid ∧
      t.word.extractLsb' 3 2 = (match t.kvar with | .aes128 => 0#2 | .aes192 => 1#2 | .aes256 => 2#2) ∧
      t.word.getLsbD 5 = t.ovr ∧ t.word.extractLsb' 6 2 = 0 ∧
      t.word.extractLsb' 8 4 = (match t.err with
        | .none => 0#4 | .invalidKeyLength => 1#4 | .noKeySchedule => 2#4 | .operandRange => 3#4
        | .illegalCommand => 4#4) ∧
      t.word >>> 12 = 0

/-- A write while idle stores into CTRL, OPA, OPB, KEY[k] or STATE[j] and changes nothing else (10_state.md R22). -/
def Obligations.IdleWriteStoresOneRegister : Prop :=
  ∀ (s : State) (off : Nat) (v : Word) (rest : List HostOp), HostNext s (.write off 4 v) rest → s.status.busy = false →
    (off = 0x004 → step s = .next { used s rest with ctrl := ⟨v.extractLsb' 0 8, v.getLsbD 8⟩ }) ∧
      (off = 0x010 → step s = .next { used s rest with opa := v }) ∧
      (off = 0x014 → step s = .next { used s rest with opb := v }) ∧
      (∀ k (h : k < 8), off = 0x020 + 4 * k → ∃ key : Vector Word 8,
        step s = .next { used s rest with key := key } ∧ key[k] = v ∧
          ∀ n (h' : n < 8), n ≠ k → key[n] = s.key[n]) ∧
      (∀ j : Fin 4, off = 0x040 + 4 * j.val → ∃ b : Block,
        step s = .next { used s rest with state := b } ∧ b.col j = v ∧ ∀ c, c ≠ j → b.col c = s.state.col c)

/-- A write while BUSY = 1 to CTRL, CMD, OPA, OPB, KEY[k] or STATE[j] is dropped: OVR is set and nothing else changes,
the pending command included (70_reset_and_hazards.md R235, 44_control.md R191). A write to a read-only register or to
a reserved offset is ignored, busy or not, and sets no flag, and a write to STATUS is performed as usual. -/
def Obligations.BusyWriteIsDropped : Prop :=
  (∀ (s : State) (off : Nat) (v : Word) (rest : List HostOp), HostNext s (.write off 4 v) rest →
      s.status.busy = true → WritableOffset off →
      step s = .next { used s rest with status := { s.status with ovr := true } }) ∧
    (∀ (s : State) (off : Nat) (v : Word) (rest : List HostOp), HostNext s (.write off 4 v) rest →
      ReadOnlyOffset off ∨ ReservedOffset off → step s = .next (used s rest)) ∧
    ∀ (s : State) (v : Word) (rest : List HostOp), HostNext s (.write 0x008 4 v) rest → s.status.busy = true →
      step s = .next { used s rest with
        status := { s.status with
          done := if v.getLsbD 1 then false else s.status.done
          ovr := if v.getLsbD 5 then false else s.status.ovr } }

/-- A write of `v` to STATUS, busy or not: bit 1 clears DONE, bit 5 clears OVR, and all other bits are ignored
(10_state.md R34). -/
def Obligations.StatusWriteClearsDoneAndOvr : Prop :=
  ∀ (s : State) (v : Word) (rest : List HostOp), HostNext s (.write 0x008 4 v) rest →
    step s = .next { used s rest with
      status := { s.status with
        done := if v.getLsbD 1 then false else s.status.done
        ovr := if v.getLsbD 5 then false else s.status.ovr } }

/-- A read of ID, CTRL, STATUS, CMD, OPA, OPB or KEY[k], busy or not, and of RESULT, STATE[j] or a written SCHED[i] while
idle, returns the register and changes no device state (10_state.md R22, R23, R35; 20_memory.md R68; the list of values
read is the model's own, log entry 3). -/
def Obligations.ReadsReturnTheRegisters : Prop :=
  ∀ (s : State) (off : Nat) (rest : List HostOp), HostNext s (.read off 4) rest →
    (off = 0x000 → step s = .next { used s rest with reads := 0x41455301#32 :: s.reads }) ∧
      (off = 0x004 → step s = .next { used s rest with reads := s.ctrl.word :: s.reads }) ∧
      (off = 0x008 → step s = .next { used s rest with reads := s.status.word :: s.reads }) ∧
      (off = 0x00C → step s = .next { used s rest with reads := 0#32 :: s.reads }) ∧
      (off = 0x010 → step s = .next { used s rest with reads := s.opa :: s.reads }) ∧
      (off = 0x014 → step s = .next { used s rest with reads := s.opb :: s.reads }) ∧
      (∀ k (h : k < 8), off = 0x020 + 4 * k → step s = .next { used s rest with reads := s.key[k] :: s.reads }) ∧
      (s.status.busy = false →
        (off = 0x018 → step s = .next { used s rest with reads := s.result :: s.reads }) ∧
        (∀ j : Fin 4, off = 0x040 + 4 * j.val →
          step s = .next { used s rest with reads := s.state.col j :: s.reads }) ∧
        (∀ i (h : i < 60), off = 0x100 + 4 * i → i < s.schedInit →
          step s = .next { used s rest with reads := s.sched[i] :: s.reads }))

/-- The host's variables: `X name = R reg` is the read, with its value kept under the name and every other name as
before; `W reg, name` is the write of the value kept there, and with nothing kept there it is refused by name
(30_encoding.md R89; the list of variables is the model's own, log entry 3, and so is the refusal, log entry 11). -/
def Obligations.HostVariablesCarryValues : Prop :=
  (∀ (s : State) (name off : Nat) (rest : List HostOp), HostNext s (.readKeep name off) rest → off < 0x200 → off % 4 = 0 →
      ∃ (t : State) (v : Word) (names : List (Nat × Word)),
        step { s with hostOps := .read off 4 :: rest } = .next t ∧ t.reads = v :: s.reads ∧
          step s = .next { t with hostNames := names } ∧ names.lookup name = some v ∧
          ∀ other, other ≠ name → names.lookup other = s.hostNames.lookup other) ∧
    (∀ (s : State) (name off : Nat) (v : Word) (rest : List HostOp), HostNext s (.writeKept name off) rest →
      s.hostNames.lookup name = some v → step s = step { s with hostOps := .write off 4 v :: rest }) ∧
    ∀ (s : State) (name off : Nat) (rest : List HostOp), HostNext s (.writeKept name off) rest →
      s.hostNames.lookup name = none → step s = .refused .unboundHostName

/-- A read of RESULT, STATE[j] or SCHED[i] while BUSY = 1, and of a SCHED word that no EXPAND has written since reset,
returns a free value, each time the next one, and changes no device state (70_reset_and_hazards.md R231, R236; the
counter of the free values and the count of written words are the model's own, log entries 1 and 2). -/
def Obligations.UnspecifiedReadsDrawFreeValues : Prop :=
  ∀ (s : State) (off : Nat) (rest : List HostOp), HostNext s (.read off 4) rest →
    ((s.status.busy = true ∧ (off = 0x018 ∨ (∃ j, j < 4 ∧ off = 0x040 + 4 * j) ∨ ∃ i, i < 60 ∧ off = 0x100 + 4 * i)) ∨
      ∃ i, i < 60 ∧ off = 0x100 + 4 * i ∧ s.schedInit ≤ i) →
    step s = .next { used s rest with reads := Config.freeWord s.draws :: s.reads, draws := s.draws + 1 }

/-- A legal access to a reserved offset is no error: a read returns 0, a write is ignored, and neither sets a flag, busy
or not (20_memory.md R64). -/
def Obligations.ReservedOffsetsReadZero : Prop :=
  ∀ (s : State) (off : Nat) (rest : List HostOp), ReservedOffset off →
    (HostNext s (.read off 4) rest → step s = .next { used s rest with reads := 0#32 :: s.reads }) ∧
      ∀ v, HostNext s (.write off 4 v) rest → step s = .next (used s rest)

/-- An access of another width than 32 bits, or at an offset in the window that is not a multiple of 4, stops with the
fault BusAccess (20_memory.md R63). -/
def Obligations.IllegalAccessFaults : Prop :=
  ∀ (s : State) (off width : Nat) (v : Word) (rest : List HostOp), off < 0x200 → width ≠ 4 ∨ off % 4 ≠ 0 →
    (HostNext s (.read off width) rest → step s = .fault .busAccess) ∧
      (HostNext s (.write off width v) rest → step s = .fault .busAccess)

/-- The window is 0x200 bytes from BASE, a multiple of 0x200: a bus address in it is an access at its offset, and any
other is none of this device's, at which the model stops by name (20_memory.md R61; the stop is log entry 5). -/
def Obligations.WindowStandsAtBase : Prop :=
  Config.base % 0x200 = 0 ∧
    (∀ off width v, off < 0x200 → busRead (Config.base + off) width = some (.read off width) ∧
      busWrite (Config.base + off) width v = some (.write off width v)) ∧
    (∀ addr width v, addr < Config.base ∨ Config.base + 0x200 ≤ addr →
      busRead addr width = none ∧ busWrite addr width v = none) ∧
    ∀ (s : State) (off width : Nat) (v : Word) (rest : List HostOp), 0x200 ≤ off →
      (HostNext s (.read off width) rest → step s = .refused .outsideWindow) ∧
        (HostNext s (.write off width v) rest → step s = .refused .outsideWindow)

/-- While a command is in flight a step of the host that does not assert reset leaves the pending command and everything
it will read as they were at its issue (20_memory.md R71, 10_state.md R41, 70_reset_and_hazards.md R237). -/
def Obligations.HostCannotDisturbACommand : Prop :=
  ∀ s t : State, s.status.busy = true → s.engineTurn = false → (∀ rest, s.hostOps ≠ .assertReset :: rest) →
    step s = .next t →
    t.status.busy = true ∧ t.pend = s.pend ∧ t.ctrl = s.ctrl ∧ t.opa = s.opa ∧ t.opb = s.opb ∧ t.key = s.key ∧
      t.state = s.state ∧ t.sched = s.sched ∧ t.status.keyValid = s.status.keyValid ∧ t.status.kvar = s.status.kvar ∧
      t.status.err = s.status.err ∧ t.result = s.result

/-- A host that keeps its duty never has a write dropped, and draws a free value only from a SCHED word that no EXPAND
has written, or for the contents of SCHED at a reset (70_reset_and_hazards.md R237; log entries 1, 2 and 4). -/
def Obligations.DutifulHostLosesNothing : Prop :=
  ∀ s t : State, s.hostDutiful = true → step s = .next t →
    (t.status.ovr = true → s.status.ovr = true) ∧
      (t.draws ≠ s.draws → (∃ rest, s.hostOps = .assertReset :: rest) ∨
        ∃ (op : HostOp) (rest : List HostOp) (i : Nat), s.hostOps = op :: rest ∧ s.schedInit ≤ i ∧ i < 60 ∧
          (op = .read (0x100 + 4 * i) 4 ∨ ∃ name, op = .readKeep name (0x100 + 4 * i)))

/-- The two orders of a write to STATE[0] against an ENCRYPT in flight: after the engine's step the write replaces the
ciphertext's first column, before it the write is dropped with OVR (95_test_vectors.md P6; 44_control.md R192; that the
state holds the choice of turns is log entry 3). -/
def Obligations.WriteRacesWithEncrypt : Prop :=
  ∀ (s : State) (v : Word), s.status.busy = true → s.inReset = false → s.status.keyValid = true →
    decode s.pend = .ok .encrypt → s.hostOps = [.write 0x040 4 v] →
    ∃ b : Block, exec .encrypt s = .next (withBlock s b) ∧
      (s.turns = [] → ∃ t u, step s = .next t ∧ step t = .next u ∧ u.state = { b with c0 := v } ∧
        u.status = ended s.status .none) ∧
      (s.turns = [.host] → ∃ t u, step s = .next t ∧ step t = .next u ∧ u.state = b ∧
        u.status = { ended s.status .none with ovr := true })

/-! ### Reset (70_reset_and_hazards.md) -/

/-- Asserted reset: every register takes its reset value, SCHED becomes unspecified (no word of it counts as written),
a command in flight is abandoned, and until release every host access stops (70_reset_and_hazards.md R230). The reset
line as an operation of the host's list, and the named stop, are the model's choice (log entry 4). The release of the
reset changes no register, in reset or not, so that after a reset during a run the device is idle with `irq` low and no
schedule (R233). -/
def Obligations.AssertedResetClearsEveryRegister : Prop :=
  (∀ (s : State) (rest : List HostOp), HostNext s .assertReset rest ∨
      (s.inReset = true ∧ s.hostOps = .assertReset :: rest) →
      ∃ t, step s = .next t ∧ t.ctrl.word = 0 ∧ t.status.word = 0 ∧ t.opa = 0 ∧ t.opb = 0 ∧ t.result = 0 ∧
        (∀ k (h : k < 8), t.key[k] = 0) ∧ (∀ j, t.state.col j = 0) ∧ t.pend = 0 ∧ t.schedInit = 0 ∧
        t.inReset = true ∧ t.hostOps = rest ∧ t.reads = s.reads ∧ t.hostNames = s.hostNames) ∧
    (∀ (s : State) (op : HostOp) (rest : List HostOp), s.inReset = true → s.hostOps = op :: rest →
      op ≠ .assertReset → op ≠ .releaseReset → step s = .fault .hostAccessInReset) ∧
    (∀ (s : State) (rest : List HostOp), HostNext s .releaseReset rest ∨
      (s.inReset = true ∧ s.hostOps = .releaseReset :: rest) →
      step s = .next { used s rest with inReset := false }) ∧
    ∀ (s : State) (rest : List HostOp), HostNext s .assertReset (.releaseReset :: rest) →
      ∃ t u, step s = .next t ∧ step t = .next u ∧ u.inReset = false ∧ u.hostOps = rest ∧ u.status.busy = false ∧
        u.irq = false ∧ u.status.keyValid = false

/-- The state after reset: idle, `irq` 0, no schedule resident, and 0 in every register whose reset value is 0
(70_reset_and_hazards.md R230, R233; 10_state.md R22). That a step leaves it as it is, because no host operation is to
come in it, is the model's own (60_exceptions.md R219; log entries 3 and 10). -/
def Obligations.ResetStateIsIdle : Prop :=
  State.reset.status.busy = false ∧ State.reset.irq = false ∧ State.reset.status.keyValid = false ∧
    State.reset.status.word = 0 ∧ State.reset.ctrl.word = 0 ∧ State.reset.opa = 0 ∧ State.reset.opb = 0 ∧
    State.reset.result = 0 ∧ (∀ k (h : k < 8), State.reset.key[k] = 0) ∧ (∀ j, State.reset.state.col j = 0) ∧
    State.reset.pend = 0 ∧ step State.reset = .next State.reset

/-! ### The whole machine -/

/-- The relations between the fields hold in the state after reset. -/
def Obligations.ResetMeetsTheInvariant : Prop := State.reset.Inv ∧ State.reset.ScheduleExpanded

/-- Every step keeps the relations between the fields: a command in flight has DONE = 0 and ERR = 0, KEY_VALID says that
the words of the resident variant have been written, and reset holds every register (10_state.md R28 to R33, R40). The
count of written words, the reset line and the host's names are the model's own (log entries 1, 3 and 4). -/
def Obligations.StepKeepsTheInvariant : Prop := ∀ s t : State, s.Inv → step s = .next t → t.Inv

/-- Every step keeps the resident schedule an expanded key: each word follows from those before it by the recurrence
(42_key_schedule.md R143; 20_memory.md R77). -/
def Obligations.ResidentScheduleStaysExpanded : Prop :=
  ∀ s t : State, s.ScheduleExpanded → step s = .next t → t.ScheduleExpanded

/-- `WAIT` reads STATUS, changes no register, and ends: with BUSY = 0 it is one read that is used up, a poll with
BUSY = 1 adds STATUS to the values read and leaves `WAIT` to come, and however long the choice of turns lets the host poll, a host
that waits is past its `WAIT`, with BUSY = 0 and DONE = 1, within two steps more than the turns laid down
(30_encoding.md R89, 20_memory.md R68, 44_control.md R196). The list of values read and the turns are the model's own (log
entry 3); that the turns laid down are finitely many, and the engine's from then on, is how the model renders weak
fairness (log entry 9). -/
def Obligations.WaitEnds : Prop :=
  (∀ (s : State) (rest : List HostOp), HostNext s .wait rest → s.status.busy = false →
      step s = .next { used s rest with reads := s.status.word :: s.reads }) ∧
    (∀ (s : State) (rest : List HostOp), HostNext s .wait rest → s.status.busy = true →
      step s = .next { s with turns := s.turns.tail, reads := s.status.word :: s.reads }) ∧
    ∀ (s : State) (rest : List HostOp), s.status.busy = true → s.inReset = false → s.hostOps = .wait :: rest →
      ∃ n t, n ≤ s.turns.length + 2 ∧ core.run n s = .next t ∧ t.hostOps = rest ∧ t.status.busy = false ∧
        t.status.done = true
end

