-- ==== Sys2Proof/Laws/Asm.lean ====
section
/-! SUPPORT. What the assembler takes, the numbers that it reads from text, and what a `C` and a `FOR` expand to
(spec/30_encoding.md R88, R89). -/

namespace Sys2Proof.Machine

/-- The value of a written digit. -/
theorem digitValue_digitChar : ∀ d < 16, digitValue (Nat.digitChar d) = some d := by decide

/-- Written digits read as the number they name, after a number already read. -/
theorem digitsValue_digits (base : Nat) (hb : base ≤ 16) (digits : List Nat) (h : ∀ d ∈ digits, d < base) (n : Nat) :
    digitsValue base n (digits.map Nat.digitChar) = some (digits.foldl (fun n d => base * n + d) n) := by
  induction digits generalizing n with
  | nil => rfl
  | cons d ds ih =>
    have hd : d < base := h d (by simp)
    simp only [List.map_cons, digitsValue, digitValue_digitChar d (by omega), if_pos hd, List.foldl_cons]
    exact ih (fun e he => h e (by simp [he])) _

/-- A decimal text reads as its number. -/
theorem parseImmediate_decimal (digits : List Nat) (hne : digits ≠ []) (h : ∀ d ∈ digits, d < 10) :
    parseImmediate (digits.map Nat.digitChar) = some (digits.foldl (fun n d => 10 * n + d) 0) := by
  have notX : ∀ d < 10, Nat.digitChar d ≠ 'x' := by decide
  have one : ∀ d < 10, parseImmediate [Nat.digitChar d] = digitsValue 10 0 [Nat.digitChar d] := by decide
  cases digits with
  | nil => exact absurd rfl hne
  | cons d ds =>
    rw [← digitsValue_digits 10 (by decide) _ h]
    cases ds with
    | nil => exact one d (h d (by simp))
    | cons e es =>
      have he : Nat.digitChar e ≠ 'x' := notX e (h e (by simp))
      simp only [List.map_cons]
      unfold parseImmediate
      split
      · next heq =>
        simp only [List.cons.injEq] at heq
        exact absurd heq.2.1 he
      · next heq => rw [heq]
      · next heq => cases heq

/-- A hexadecimal text reads as its number. -/
theorem parseImmediate_hex (digits : List Nat) (hne : digits ≠ []) (h : ∀ d ∈ digits, d < 16) :
    parseImmediate ('0' :: 'x' :: digits.map Nat.digitChar) = some (digits.foldl (fun n d => 16 * n + d) 0) := by
  cases digits with
  | nil => exact absurd rfl hne
  | cons d ds => exact digitsValue_digits 16 (by decide) _ h 0

/-- The format N commands are well formed. -/
theorem plainCommands_wf : ∀ i ∈ plainCommands, i.wf = true := by decide

/-- Whatever a mnemonic and an immediate assemble to is well formed and has that mnemonic. -/
theorem assembleInstr_eq_some {m : String} {imm : Option Nat} {i : Instr} (h : assembleInstr m imm = some i) :
    i.wf = true ∧ mnemonic i = m := by
  unfold assembleInstr at h
  split at h
  · exact ⟨plainCommands_wf i (List.mem_of_find?_eq_some h), by simpa using List.find?_some h⟩
  · split_ifs at h with hn hw ha
    · cases h
      exact ⟨by simpa [Instr.wf] using hn, (eq_of_beq hw).symm⟩
    · cases h
      exact ⟨by simpa [Instr.wf] using hn, (eq_of_beq ha).symm⟩

/-- A `C` is one write to CMD, of the encoding of a well-formed command with its mnemonic. -/
theorem opC_eq_some {m : String} {imm : Option Nat} {ops : List HostOp} (h : opC m imm = some ops) :
    ∃ i, assembleInstr m imm = some i ∧ i.wf = true ∧ mnemonic i = m ∧ ops = [.write 0x00C 4 (encode i)] := by
  obtain ⟨i, hi, rfl⟩ := Option.map_eq_some_iff.1 h
  exact ⟨i, hi, (assembleInstr_eq_some hi).1, (assembleInstr_eq_some hi).2, rfl⟩

@[simp] theorem joinOps_nil : joinOps [] = some [] := rfl

@[simp] theorem joinOps_cons_none (rest : List (Option (List HostOp))) : joinOps (none :: rest) = none := rfl

@[simp] theorem joinOps_cons_some (ops : List HostOp) (rest : List (Option (List HostOp))) :
    joinOps (some ops :: rest) = (joinOps rest).map fun more => ops ++ more := rfl

/-- Pieces that all assemble are written out one after the other. -/
theorem joinOps_map_some (f : Nat → List HostOp) (l : List Nat) :
    joinOps (l.map fun r => some (f r)) = some (l.flatMap f) := by
  induction l with
  | nil => rfl
  | cons r l ih => simp [ih]

/-- A piece that does not assemble is an error of the whole. -/
theorem joinOps_eq_none {l : List (Option (List HostOp))} (h : none ∈ l) : joinOps l = none := by
  induction l with
  | nil => cases h
  | cons p l ih =>
    cases p with
    | none => rfl
    | some ops => rw [joinOps_cons_some, ih (by simpa using h), Option.map_none]

end Sys2Proof.Machine
end

