-- ==== Sys2Proof/Laws/Operands.lean ====
section
/-! SUPPORT. The laws of the operand forms: the bytes of a word, the elements of the State, the parameters of a
variant and the words of the schedule. -/

namespace Sys2Proof.Machine

/-! ### The bytes of a word -/

@[simp] theorem byteOf_ofBytes_zero (a b c d : Byte) : byteOf (ofBytes a b c d) 0 = a := by
  unfold byteOf ofBytes
  ext i hi
  simp
  grind

@[simp] theorem byteOf_ofBytes_one (a b c d : Byte) : byteOf (ofBytes a b c d) 1 = b := by
  unfold byteOf ofBytes
  ext i hi
  simp
  grind

@[simp] theorem byteOf_ofBytes_two (a b c d : Byte) : byteOf (ofBytes a b c d) 2 = c := by
  unfold byteOf ofBytes
  ext i hi
  simp
  grind

@[simp] theorem byteOf_ofBytes_three (a b c d : Byte) : byteOf (ofBytes a b c d) 3 = d := by
  unfold byteOf ofBytes
  ext i hi
  simp
  grind

/-- A word is the sequence of its bytes (00_scope.md R12). -/
@[simp] theorem ofBytes_byteOf (w : Word) : ofBytes (byteOf w 0) (byteOf w 1) (byteOf w 2) (byteOf w 3) = w := by
  unfold byteOf ofBytes
  ext i hi
  simp
  grind

/-- Two words with the same bytes are the same word. -/
theorem word_ext {v w : Word} (h : ∀ i, byteOf v i = byteOf w i) : v = w := by
  rw [← ofBytes_byteOf v, ← ofBytes_byteOf w, h 0, h 1, h 2, h 3]

/-- The bytes of an exclusive-or are the exclusive-ors of the bytes. -/
@[simp] theorem byteOf_xor (v w : Word) (i : Fin 4) : byteOf (v ^^^ w) i = byteOf v i ^^^ byteOf w i := by
  unfold byteOf
  ext j hj
  simp

@[simp] theorem byteOf_mapBytes (f : Byte → Byte) (w : Word) (i : Fin 4) :
    byteOf (mapBytes f w) i = f (byteOf w i) := by
  unfold mapBytes
  match i with
  | 0 => exact byteOf_ofBytes_zero ..
  | 1 => exact byteOf_ofBytes_one ..
  | 2 => exact byteOf_ofBytes_two ..
  | 3 => exact byteOf_ofBytes_three ..

/-- A byte function and another that undoes it, byte by byte. -/
theorem mapBytes_mapBytes (f g : Byte → Byte) (h : ∀ b, f (g b) = b) (w : Word) :
    mapBytes f (mapBytes g w) = w :=
  word_ext fun i => by simp [h]

@[simp] theorem lowByte_zext (b : Byte) : lowByte (zext b) = b := by
  unfold lowByte zext
  ext i hi
  simp

/-- `zext_32` of the low byte keeps bits [7:0] and clears the others (10_state.md R37). -/
theorem zext_lowByte (w : Word) : zext (lowByte w) = w &&& 0xff#32 := by
  unfold lowByte zext
  ext i hi
  by_cases h : i < 8
  · interval_cases i <;> simp
  · have : 8 ≤ i := by omega
    interval_cases i <;> simp

/-! ### The State -/

theorem block_ext_cols {a b : Block} (h : ∀ c, a.col c = b.col c) : a = b := by
  cases a
  cases b
  have h0 := h 0
  have h1 := h 1
  have h2 := h 2
  have h3 := h 3
  simp only [Block.col] at h0 h1 h2 h3
  rw [h0, h1, h2, h3]

/-- Two State values with the same elements are the same (00_scope.md R16). -/
theorem block_ext {a b : Block} (h : ∀ r c, a.elem r c = b.elem r c) : a = b :=
  block_ext_cols fun c => word_ext fun r => h r c

@[simp] theorem elem_ofElems (f : Fin 4 → Fin 4 → Byte) (r c : Fin 4) : (Block.ofElems f).elem r c = f r c := by
  unfold Block.elem Block.ofElems
  match r, c with
  | 0, 0 | 0, 1 | 0, 2 | 0, 3 => exact byteOf_ofBytes_zero ..
  | 1, 0 | 1, 1 | 1, 2 | 1, 3 => exact byteOf_ofBytes_one ..
  | 2, 0 | 2, 1 | 2, 2 | 2, 3 => exact byteOf_ofBytes_two ..
  | 3, 0 | 3, 1 | 3, 2 | 3, 3 => exact byteOf_ofBytes_three ..

@[simp] theorem col_mapCols (f : Word → Word) (b : Block) (c : Fin 4) : (b.mapCols f).col c = f (b.col c) := by
  match c with
  | 0 | 1 | 2 | 3 => rfl

/-- A column function and another that undoes it, column by column. -/
theorem mapCols_mapCols (f g : Word → Word) (h : ∀ w, f (g w) = w) (b : Block) :
    (b.mapCols g).mapCols f = b :=
  block_ext_cols fun c => by simp [h]

@[simp] theorem col_setCol_same (b : Block) (v : Word) (c : Fin 4) : (b.setCol v c).col c = v := by
  match c with
  | 0 | 1 | 2 | 3 => rfl

theorem col_setCol_other (b : Block) (v : Word) {c d : Fin 4} (h : d ≠ c) : (b.setCol v c).col d = b.col d := by
  match c, d with
  | 0, 0 | 1, 1 | 2, 2 | 3, 3 => exact absurd rfl h
  | 0, 1 | 0, 2 | 0, 3 | 1, 0 | 1, 2 | 1, 3 | 2, 0 | 2, 1 | 2, 3 | 3, 0 | 3, 1 | 3, 2 => rfl

/-! ### Variants and the schedule -/

/-- `nr = nk + 6` (42_key_schedule.md R143). -/
theorem nr_eq_nk_add (v : Variant) : v.nr = v.nk + 6 := by cases v <;> rfl

theorem words_le (v : Variant) : v.words ≤ 60 := by cases v <;> decide

theorem nk_le_words (v : Variant) : v.nk ≤ v.words := by cases v <;> decide

theorem nk_pos (v : Variant) : 0 < v.nk := by cases v <;> decide

theorem nk_le_eight (v : Variant) : v.nk ≤ 8 := by cases v <;> decide

/-- The key length in bytes selects the variant with that many words (42_key_schedule.md R140). -/
theorem ofKeyLen_eq_some (n : BitVec 8) (v : Variant) :
    Variant.ofKeyLen n = some v ↔ n.toNat = 4 * v.nk := by
  unfold Variant.ofKeyLen
  split <;> cases v <;> simp_all [Variant.nk]

/-- Any other key length selects none (42_key_schedule.md R140). -/
theorem ofKeyLen_eq_none (n : BitVec 8) :
    Variant.ofKeyLen n = none ↔ n.toNat ≠ 16 ∧ n.toNat ≠ 24 ∧ n.toNat ≠ 32 := by
  unfold Variant.ofKeyLen
  split <;> simp_all

theorem schedWord_of_lt (sched : Vector Word 60) (i : Nat) (h : i < 60) : schedWord sched i = sched[i] := by
  simp [schedWord, h]

/-- Every word of a round key of the variant is a word of SCHED (43_round_pipeline.md R175). -/
theorem round_index_lt (v : Variant) {rk : Nat} (h : rk ≤ v.nr) : 4 * rk + 3 < v.words := by
  unfold Variant.words
  omega

end Sys2Proof.Machine
end

