-- ==== Sys2Proof/Laws/KeySchedule.lean ====
section
/-! SUPPORT. The laws of `expand_key` (spec/42_key_schedule.md R143, R144): its length, its first words, and the
recurrence. -/

namespace Sys2Proof.Machine

@[simp] theorem extendSchedule_length (nk n : Nat) (w : List Word) :
    (extendSchedule nk n w).length = w.length + n := by
  induction n generalizing w with
  | zero => rfl
  | succ n ih => simp [extendSchedule, ih]; omega

/-- The words already made are kept. -/
theorem extendSchedule_getElem?_of_lt (nk n : Nat) (w : List Word) (i : Nat) (h : i < w.length) :
    (extendSchedule nk n w)[i]? = w[i]? := by
  induction n generalizing w with
  | zero => rfl
  | succ n ih =>
    rw [extendSchedule, ih _ (by simp; omega), List.getElem?_append_left h]

/-- Each word made is that of the recurrence, from the words before it in the result. -/
theorem extendSchedule_recurrence (nk n : Nat) (w : List Word) (hw : 0 < w.length) (hk : 0 < nk) (i : Nat)
    (h1 : w.length ≤ i) (h2 : i < w.length + n) :
    (extendSchedule nk n w)[i]? =
      some (scheduleWord nk i ((extendSchedule nk n w).getD (i - nk) 0) ((extendSchedule nk n w).getD (i - 1) 0)) := by
  induction n generalizing w with
  | zero => omega
  | succ n ih =>
    rw [extendSchedule]
    by_cases hi : i = w.length
    · subst hi
      have keep : ∀ j, j < w.length → ∀ x, (extendSchedule nk n (w ++ [x])).getD j 0 = w.getD j 0 := by
        intro j hj x
        simp only [List.getD_eq_getElem?_getD]
        rw [extendSchedule_getElem?_of_lt _ _ _ _ (by simp; omega), List.getElem?_append_left hj]
      rw [keep _ (by omega), keep _ (by omega), extendSchedule_getElem?_of_lt _ _ _ _ (by simp)]
      simp
    · exact ih _ (by simp) (by simp; omega) (by simp; omega)

theorem expandKey_length (v : Variant) (key : List Word) (h : v.nk ≤ key.length) :
    (expandKey v key).length = v.words := by
  have := nk_le_words v
  simp [expandKey]
  omega

/-- "Its first Nk words equal the key words" (42_key_schedule.md R144). -/
theorem expandKey_key (v : Variant) (key : List Word) (hk : v.nk ≤ key.length) (i : Nat) (h : i < v.nk) :
    (expandKey v key)[i]? = key[i]? := by
  rw [expandKey, extendSchedule_getElem?_of_lt _ _ _ _ (by simp; omega), List.getElem?_take_of_lt h]

/-- The words from Nk on follow the recurrence (42_key_schedule.md R143). -/
theorem expandKey_recurrence (v : Variant) (key : List Word) (hk : v.nk ≤ key.length) (i : Nat)
    (h1 : v.nk ≤ i) (h2 : i < v.words) :
    (expandKey v key)[i]? =
      some (scheduleWord v.nk i ((expandKey v key).getD (i - v.nk) 0) ((expandKey v key).getD (i - 1) 0)) := by
  have hp := nk_pos v
  have hl : (key.take v.nk).length = v.nk := by simp; omega
  exact extendSchedule_recurrence _ _ _ (by omega) hp _ (by omega) (by omega)

end Sys2Proof.Machine
end

