-- ==== Sys2Proof/Laws/State.lean ====
section
/-! SUPPORT. What each shared operation does to each field of the state: one lemma per field per update, true by
rfl, so that no proof unfolds a record update. -/

namespace Sys2Proof.Machine.State

variable (s : State)

@[simp] theorem issue_ctrl (v : Word) : (s.issue v).ctrl = s.ctrl := rfl
@[simp] theorem issue_status (v : Word) : (s.issue v).status = s.status.issued := rfl
@[simp] theorem issue_opa (v : Word) : (s.issue v).opa = s.opa := rfl
@[simp] theorem issue_opb (v : Word) : (s.issue v).opb = s.opb := rfl
@[simp] theorem issue_result (v : Word) : (s.issue v).result = s.result := rfl
@[simp] theorem issue_key (v : Word) : (s.issue v).key = s.key := rfl
@[simp] theorem issue_state (v : Word) : (s.issue v).state = s.state := rfl
@[simp] theorem issue_sched (v : Word) : (s.issue v).sched = s.sched := rfl
@[simp] theorem issue_pend (v : Word) : (s.issue v).pend = v := rfl
@[simp] theorem issue_schedInit (v : Word) : (s.issue v).schedInit = s.schedInit := rfl
@[simp] theorem issue_inReset (v : Word) : (s.issue v).inReset = s.inReset := rfl
@[simp] theorem issue_draws (v : Word) : (s.issue v).draws = s.draws := rfl
@[simp] theorem issue_hostOps (v : Word) : (s.issue v).hostOps = s.hostOps := rfl
@[simp] theorem issue_turns (v : Word) : (s.issue v).turns = s.turns := rfl
@[simp] theorem issue_reads (v : Word) : (s.issue v).reads = s.reads := rfl
@[simp] theorem issue_hostNames (v : Word) : (s.issue v).hostNames = s.hostNames := rfl

@[simp] theorem complete_ctrl (code : ErrCode) : (s.complete code).ctrl = s.ctrl := rfl
@[simp] theorem complete_status (code : ErrCode) : (s.complete code).status = s.status.completed code := rfl
@[simp] theorem complete_opa (code : ErrCode) : (s.complete code).opa = s.opa := rfl
@[simp] theorem complete_opb (code : ErrCode) : (s.complete code).opb = s.opb := rfl
@[simp] theorem complete_result (code : ErrCode) : (s.complete code).result = s.result := rfl
@[simp] theorem complete_key (code : ErrCode) : (s.complete code).key = s.key := rfl
@[simp] theorem complete_state (code : ErrCode) : (s.complete code).state = s.state := rfl
@[simp] theorem complete_sched (code : ErrCode) : (s.complete code).sched = s.sched := rfl
@[simp] theorem complete_pend (code : ErrCode) : (s.complete code).pend = s.pend := rfl
@[simp] theorem complete_schedInit (code : ErrCode) : (s.complete code).schedInit = s.schedInit := rfl
@[simp] theorem complete_inReset (code : ErrCode) : (s.complete code).inReset = s.inReset := rfl
@[simp] theorem complete_draws (code : ErrCode) : (s.complete code).draws = s.draws := rfl
@[simp] theorem complete_hostOps (code : ErrCode) : (s.complete code).hostOps = s.hostOps := rfl
@[simp] theorem complete_turns (code : ErrCode) : (s.complete code).turns = s.turns := rfl
@[simp] theorem complete_reads (code : ErrCode) : (s.complete code).reads = s.reads := rfl
@[simp] theorem complete_hostNames (code : ErrCode) : (s.complete code).hostNames = s.hostNames := rfl

@[simp] theorem writeResult_ctrl (v : Word) : (s.writeResult v).ctrl = s.ctrl := rfl
@[simp] theorem writeResult_status (v : Word) : (s.writeResult v).status = s.status := rfl
@[simp] theorem writeResult_opa (v : Word) : (s.writeResult v).opa = s.opa := rfl
@[simp] theorem writeResult_opb (v : Word) : (s.writeResult v).opb = s.opb := rfl
@[simp] theorem writeResult_result (v : Word) : (s.writeResult v).result = v := rfl
@[simp] theorem writeResult_key (v : Word) : (s.writeResult v).key = s.key := rfl
@[simp] theorem writeResult_state (v : Word) : (s.writeResult v).state = s.state := rfl
@[simp] theorem writeResult_sched (v : Word) : (s.writeResult v).sched = s.sched := rfl
@[simp] theorem writeResult_pend (v : Word) : (s.writeResult v).pend = s.pend := rfl
@[simp] theorem writeResult_schedInit (v : Word) : (s.writeResult v).schedInit = s.schedInit := rfl
@[simp] theorem writeResult_inReset (v : Word) : (s.writeResult v).inReset = s.inReset := rfl
@[simp] theorem writeResult_draws (v : Word) : (s.writeResult v).draws = s.draws := rfl
@[simp] theorem writeResult_hostOps (v : Word) : (s.writeResult v).hostOps = s.hostOps := rfl
@[simp] theorem writeResult_turns (v : Word) : (s.writeResult v).turns = s.turns := rfl
@[simp] theorem writeResult_reads (v : Word) : (s.writeResult v).reads = s.reads := rfl
@[simp] theorem writeResult_hostNames (v : Word) : (s.writeResult v).hostNames = s.hostNames := rfl

@[simp] theorem writeBlock_ctrl (b : Block) : (s.writeBlock b).ctrl = s.ctrl := rfl
@[simp] theorem writeBlock_status (b : Block) : (s.writeBlock b).status = s.status := rfl
@[simp] theorem writeBlock_opa (b : Block) : (s.writeBlock b).opa = s.opa := rfl
@[simp] theorem writeBlock_opb (b : Block) : (s.writeBlock b).opb = s.opb := rfl
@[simp] theorem writeBlock_result (b : Block) : (s.writeBlock b).result = s.result := rfl
@[simp] theorem writeBlock_key (b : Block) : (s.writeBlock b).key = s.key := rfl
@[simp] theorem writeBlock_state (b : Block) : (s.writeBlock b).state = b := rfl
@[simp] theorem writeBlock_sched (b : Block) : (s.writeBlock b).sched = s.sched := rfl
@[simp] theorem writeBlock_pend (b : Block) : (s.writeBlock b).pend = s.pend := rfl
@[simp] theorem writeBlock_schedInit (b : Block) : (s.writeBlock b).schedInit = s.schedInit := rfl
@[simp] theorem writeBlock_inReset (b : Block) : (s.writeBlock b).inReset = s.inReset := rfl
@[simp] theorem writeBlock_draws (b : Block) : (s.writeBlock b).draws = s.draws := rfl
@[simp] theorem writeBlock_hostOps (b : Block) : (s.writeBlock b).hostOps = s.hostOps := rfl
@[simp] theorem writeBlock_turns (b : Block) : (s.writeBlock b).turns = s.turns := rfl
@[simp] theorem writeBlock_reads (b : Block) : (s.writeBlock b).reads = s.reads := rfl
@[simp] theorem writeBlock_hostNames (b : Block) : (s.writeBlock b).hostNames = s.hostNames := rfl

@[simp] theorem writeSchedule_ctrl (v : Variant) (w : List Word) : (s.writeSchedule v w).ctrl = s.ctrl := rfl
@[simp] theorem writeSchedule_status (v : Variant) (w : List Word) : (s.writeSchedule v w).status = s.status.resident v := rfl
@[simp] theorem writeSchedule_opa (v : Variant) (w : List Word) : (s.writeSchedule v w).opa = s.opa := rfl
@[simp] theorem writeSchedule_opb (v : Variant) (w : List Word) : (s.writeSchedule v w).opb = s.opb := rfl
@[simp] theorem writeSchedule_result (v : Variant) (w : List Word) : (s.writeSchedule v w).result = s.result := rfl
@[simp] theorem writeSchedule_key (v : Variant) (w : List Word) : (s.writeSchedule v w).key = s.key := rfl
@[simp] theorem writeSchedule_state (v : Variant) (w : List Word) : (s.writeSchedule v w).state = s.state := rfl
@[simp] theorem writeSchedule_sched (v : Variant) (w : List Word) : (s.writeSchedule v w).sched = Vector.ofFn fun i : Fin 60 => (w[i.val]?).getD s.sched[i] := rfl
@[simp] theorem writeSchedule_pend (v : Variant) (w : List Word) : (s.writeSchedule v w).pend = s.pend := rfl
@[simp] theorem writeSchedule_schedInit (v : Variant) (w : List Word) : (s.writeSchedule v w).schedInit = max s.schedInit w.length := rfl
@[simp] theorem writeSchedule_inReset (v : Variant) (w : List Word) : (s.writeSchedule v w).inReset = s.inReset := rfl
@[simp] theorem writeSchedule_draws (v : Variant) (w : List Word) : (s.writeSchedule v w).draws = s.draws := rfl
@[simp] theorem writeSchedule_hostOps (v : Variant) (w : List Word) : (s.writeSchedule v w).hostOps = s.hostOps := rfl
@[simp] theorem writeSchedule_turns (v : Variant) (w : List Word) : (s.writeSchedule v w).turns = s.turns := rfl
@[simp] theorem writeSchedule_reads (v : Variant) (w : List Word) : (s.writeSchedule v w).reads = s.reads := rfl
@[simp] theorem writeSchedule_hostNames (v : Variant) (w : List Word) : (s.writeSchedule v w).hostNames = s.hostNames := rfl

@[simp] theorem ackStatus_ctrl (v : Word) : (s.ackStatus v).ctrl = s.ctrl := rfl
@[simp] theorem ackStatus_status (v : Word) : (s.ackStatus v).status = s.status.acked v := rfl
@[simp] theorem ackStatus_opa (v : Word) : (s.ackStatus v).opa = s.opa := rfl
@[simp] theorem ackStatus_opb (v : Word) : (s.ackStatus v).opb = s.opb := rfl
@[simp] theorem ackStatus_result (v : Word) : (s.ackStatus v).result = s.result := rfl
@[simp] theorem ackStatus_key (v : Word) : (s.ackStatus v).key = s.key := rfl
@[simp] theorem ackStatus_state (v : Word) : (s.ackStatus v).state = s.state := rfl
@[simp] theorem ackStatus_sched (v : Word) : (s.ackStatus v).sched = s.sched := rfl
@[simp] theorem ackStatus_pend (v : Word) : (s.ackStatus v).pend = s.pend := rfl
@[simp] theorem ackStatus_schedInit (v : Word) : (s.ackStatus v).schedInit = s.schedInit := rfl
@[simp] theorem ackStatus_inReset (v : Word) : (s.ackStatus v).inReset = s.inReset := rfl
@[simp] theorem ackStatus_draws (v : Word) : (s.ackStatus v).draws = s.draws := rfl
@[simp] theorem ackStatus_hostOps (v : Word) : (s.ackStatus v).hostOps = s.hostOps := rfl
@[simp] theorem ackStatus_turns (v : Word) : (s.ackStatus v).turns = s.turns := rfl
@[simp] theorem ackStatus_reads (v : Word) : (s.ackStatus v).reads = s.reads := rfl
@[simp] theorem ackStatus_hostNames (v : Word) : (s.ackStatus v).hostNames = s.hostNames := rfl

@[simp] theorem dropWrite_ctrl : (s.dropWrite).ctrl = s.ctrl := rfl
@[simp] theorem dropWrite_status : (s.dropWrite).status = s.status.dropped := rfl
@[simp] theorem dropWrite_opa : (s.dropWrite).opa = s.opa := rfl
@[simp] theorem dropWrite_opb : (s.dropWrite).opb = s.opb := rfl
@[simp] theorem dropWrite_result : (s.dropWrite).result = s.result := rfl
@[simp] theorem dropWrite_key : (s.dropWrite).key = s.key := rfl
@[simp] theorem dropWrite_state : (s.dropWrite).state = s.state := rfl
@[simp] theorem dropWrite_sched : (s.dropWrite).sched = s.sched := rfl
@[simp] theorem dropWrite_pend : (s.dropWrite).pend = s.pend := rfl
@[simp] theorem dropWrite_schedInit : (s.dropWrite).schedInit = s.schedInit := rfl
@[simp] theorem dropWrite_inReset : (s.dropWrite).inReset = s.inReset := rfl
@[simp] theorem dropWrite_draws : (s.dropWrite).draws = s.draws := rfl
@[simp] theorem dropWrite_hostOps : (s.dropWrite).hostOps = s.hostOps := rfl
@[simp] theorem dropWrite_turns : (s.dropWrite).turns = s.turns := rfl
@[simp] theorem dropWrite_reads : (s.dropWrite).reads = s.reads := rfl
@[simp] theorem dropWrite_hostNames : (s.dropWrite).hostNames = s.hostNames := rfl

@[simp] theorem applyReset_ctrl : (s.applyReset).ctrl = State.reset.ctrl := rfl
@[simp] theorem applyReset_status : (s.applyReset).status = State.reset.status := rfl
@[simp] theorem applyReset_opa : (s.applyReset).opa = State.reset.opa := rfl
@[simp] theorem applyReset_opb : (s.applyReset).opb = State.reset.opb := rfl
@[simp] theorem applyReset_result : (s.applyReset).result = State.reset.result := rfl
@[simp] theorem applyReset_key : (s.applyReset).key = State.reset.key := rfl
@[simp] theorem applyReset_state : (s.applyReset).state = State.reset.state := rfl
@[simp] theorem applyReset_sched : (s.applyReset).sched = Vector.ofFn fun i : Fin 60 => Config.freeWord (s.draws + i.val) := rfl
@[simp] theorem applyReset_pend : (s.applyReset).pend = State.reset.pend := rfl
@[simp] theorem applyReset_schedInit : (s.applyReset).schedInit = 0 := rfl
@[simp] theorem applyReset_inReset : (s.applyReset).inReset = true := rfl
@[simp] theorem applyReset_draws : (s.applyReset).draws = s.draws + 60 := rfl
@[simp] theorem applyReset_hostOps : (s.applyReset).hostOps = s.hostOps := rfl
@[simp] theorem applyReset_turns : (s.applyReset).turns = s.turns := rfl
@[simp] theorem applyReset_reads : (s.applyReset).reads = s.reads := rfl
@[simp] theorem applyReset_hostNames : (s.applyReset).hostNames = s.hostNames := rfl

@[simp] theorem readReg_ctrl (r : Reg) : (s.readReg r).ctrl = s.ctrl := rfl
@[simp] theorem readReg_status (r : Reg) : (s.readReg r).status = s.status := rfl
@[simp] theorem readReg_opa (r : Reg) : (s.readReg r).opa = s.opa := rfl
@[simp] theorem readReg_opb (r : Reg) : (s.readReg r).opb = s.opb := rfl
@[simp] theorem readReg_result (r : Reg) : (s.readReg r).result = s.result := rfl
@[simp] theorem readReg_key (r : Reg) : (s.readReg r).key = s.key := rfl
@[simp] theorem readReg_state (r : Reg) : (s.readReg r).state = s.state := rfl
@[simp] theorem readReg_sched (r : Reg) : (s.readReg r).sched = s.sched := rfl
@[simp] theorem readReg_pend (r : Reg) : (s.readReg r).pend = s.pend := rfl
@[simp] theorem readReg_schedInit (r : Reg) : (s.readReg r).schedInit = s.schedInit := rfl
@[simp] theorem readReg_inReset (r : Reg) : (s.readReg r).inReset = s.inReset := rfl
@[simp] theorem readReg_draws (r : Reg) : (s.readReg r).draws = if s.readsAnyValue r then s.draws + 1 else s.draws := rfl
@[simp] theorem readReg_hostOps (r : Reg) : (s.readReg r).hostOps = s.hostOps := rfl
@[simp] theorem readReg_turns (r : Reg) : (s.readReg r).turns = s.turns := rfl
@[simp] theorem readReg_reads (r : Reg) : (s.readReg r).reads = s.readValue r :: s.reads := rfl
@[simp] theorem readReg_hostNames (r : Reg) : (s.readReg r).hostNames = s.hostNames := rfl

@[simp] theorem keep_ctrl (name : Nat) (r : Reg) : (s.keep name r).ctrl = s.ctrl := rfl
@[simp] theorem keep_status (name : Nat) (r : Reg) : (s.keep name r).status = s.status := rfl
@[simp] theorem keep_opa (name : Nat) (r : Reg) : (s.keep name r).opa = s.opa := rfl
@[simp] theorem keep_opb (name : Nat) (r : Reg) : (s.keep name r).opb = s.opb := rfl
@[simp] theorem keep_result (name : Nat) (r : Reg) : (s.keep name r).result = s.result := rfl
@[simp] theorem keep_key (name : Nat) (r : Reg) : (s.keep name r).key = s.key := rfl
@[simp] theorem keep_state (name : Nat) (r : Reg) : (s.keep name r).state = s.state := rfl
@[simp] theorem keep_sched (name : Nat) (r : Reg) : (s.keep name r).sched = s.sched := rfl
@[simp] theorem keep_pend (name : Nat) (r : Reg) : (s.keep name r).pend = s.pend := rfl
@[simp] theorem keep_schedInit (name : Nat) (r : Reg) : (s.keep name r).schedInit = s.schedInit := rfl
@[simp] theorem keep_inReset (name : Nat) (r : Reg) : (s.keep name r).inReset = s.inReset := rfl
@[simp] theorem keep_draws (name : Nat) (r : Reg) : (s.keep name r).draws = if s.readsAnyValue r then s.draws + 1 else s.draws := rfl
@[simp] theorem keep_hostOps (name : Nat) (r : Reg) : (s.keep name r).hostOps = s.hostOps := rfl
@[simp] theorem keep_turns (name : Nat) (r : Reg) : (s.keep name r).turns = s.turns := rfl
@[simp] theorem keep_reads (name : Nat) (r : Reg) : (s.keep name r).reads = s.readValue r :: s.reads := rfl
@[simp] theorem keep_hostNames (name : Nat) (r : Reg) : (s.keep name r).hostNames = bindName s.hostNames name (s.readValue r) := rfl

@[simp] theorem takeTurn_ctrl : (s.takeTurn).ctrl = s.ctrl := rfl
@[simp] theorem takeTurn_status : (s.takeTurn).status = s.status := rfl
@[simp] theorem takeTurn_opa : (s.takeTurn).opa = s.opa := rfl
@[simp] theorem takeTurn_opb : (s.takeTurn).opb = s.opb := rfl
@[simp] theorem takeTurn_result : (s.takeTurn).result = s.result := rfl
@[simp] theorem takeTurn_key : (s.takeTurn).key = s.key := rfl
@[simp] theorem takeTurn_state : (s.takeTurn).state = s.state := rfl
@[simp] theorem takeTurn_sched : (s.takeTurn).sched = s.sched := rfl
@[simp] theorem takeTurn_pend : (s.takeTurn).pend = s.pend := rfl
@[simp] theorem takeTurn_schedInit : (s.takeTurn).schedInit = s.schedInit := rfl
@[simp] theorem takeTurn_inReset : (s.takeTurn).inReset = s.inReset := rfl
@[simp] theorem takeTurn_draws : (s.takeTurn).draws = s.draws := rfl
@[simp] theorem takeTurn_hostOps : (s.takeTurn).hostOps = s.hostOps := rfl
@[simp] theorem takeTurn_turns : (s.takeTurn).turns = if s.status.busy then s.turns.tail else s.turns := rfl
@[simp] theorem takeTurn_reads : (s.takeTurn).reads = s.reads := rfl
@[simp] theorem takeTurn_hostNames : (s.takeTurn).hostNames = s.hostNames := rfl

@[simp] theorem withFetchWord_ctrl (nbits w : Nat) : (s.withFetchWord nbits w).ctrl = s.ctrl := rfl
@[simp] theorem withFetchWord_status (nbits w : Nat) : (s.withFetchWord nbits w).status = s.status.issued := rfl
@[simp] theorem withFetchWord_opa (nbits w : Nat) : (s.withFetchWord nbits w).opa = s.opa := rfl
@[simp] theorem withFetchWord_opb (nbits w : Nat) : (s.withFetchWord nbits w).opb = s.opb := rfl
@[simp] theorem withFetchWord_result (nbits w : Nat) : (s.withFetchWord nbits w).result = s.result := rfl
@[simp] theorem withFetchWord_key (nbits w : Nat) : (s.withFetchWord nbits w).key = s.key := rfl
@[simp] theorem withFetchWord_state (nbits w : Nat) : (s.withFetchWord nbits w).state = s.state := rfl
@[simp] theorem withFetchWord_sched (nbits w : Nat) : (s.withFetchWord nbits w).sched = s.sched := rfl
@[simp] theorem withFetchWord_pend (nbits w : Nat) : (s.withFetchWord nbits w).pend = tableWord nbits w := rfl
@[simp] theorem withFetchWord_schedInit (nbits w : Nat) : (s.withFetchWord nbits w).schedInit = s.schedInit := rfl
@[simp] theorem withFetchWord_inReset (nbits w : Nat) : (s.withFetchWord nbits w).inReset = false := rfl
@[simp] theorem withFetchWord_draws (nbits w : Nat) : (s.withFetchWord nbits w).draws = s.draws := rfl
@[simp] theorem withFetchWord_hostOps (nbits w : Nat) : (s.withFetchWord nbits w).hostOps = s.hostOps := rfl
@[simp] theorem withFetchWord_turns (nbits w : Nat) : (s.withFetchWord nbits w).turns = .engine :: s.turns := rfl
@[simp] theorem withFetchWord_reads (nbits w : Nat) : (s.withFetchWord nbits w).reads = s.reads := rfl
@[simp] theorem withFetchWord_hostNames (nbits w : Nat) : (s.withFetchWord nbits w).hostNames = s.hostNames := rfl

end Sys2Proof.Machine.State
end

