-- ==== Sys2Proof/Laws/Exec.lean ====
section
/-! SUPPORT. What a command and the engine's step can do, said once (spec/44_control.md R192 to R194). -/

namespace Sys2Proof.Machine

/-- The three ends of a command, as next states. -/
theorem succeed_eq (s : State) : succeed s = .next (s.complete .none) := rfl

theorem raiseError_eq (code : ErrCode) (s : State) : raiseError code s = .next (s.complete code) := rfl

theorem finishResult_eq (v : Word) (s : State) : finishResult v s = .next ((s.writeResult v).complete .none) := rfl

theorem finishBlock_eq (b : Block) (s : State) : finishBlock b s = .next ((s.writeBlock b).complete .none) := rfl

/-- ADDRK with a resident schedule and a round of it (43_round_pipeline.md R175). -/
theorem execAddrk_resident (s : State) (round : Nat) (hk : s.status.keyValid = true) (hr : round ≤ s.status.kvar.nr) :
    execAddrk round s = finishBlock (addRoundKey s.sched round s.state) s := by
  unfold execAddrk
  rw [if_neg (by simp [hk]), if_neg (by omega)]

/-- ENCRYPT with a resident schedule (43_round_pipeline.md R176). -/
theorem execEncrypt_resident (s : State) (hk : s.status.keyValid = true) :
    execEncrypt s = finishBlock (encryptBlock s.sched s.status.kvar.nr s.state) s := by
  unfold execEncrypt
  rw [if_neg (by simp [hk])]

/-- DECRYPT with a resident schedule (43_round_pipeline.md R177). -/
theorem execDecrypt_resident (s : State) (hk : s.status.keyValid = true) :
    execDecrypt s = finishBlock (decryptBlock s.sched s.status.kvar.nr s.state) s := by
  unfold execDecrypt
  rw [if_neg (by simp [hk])]

/-- EXPAND with the key length of a variant (42_key_schedule.md R146). -/
theorem execExpand_variant (s : State) (v : Variant) (hv : Variant.ofKeyLen s.ctrl.keyLen = some v) :
    execExpand s = .next ((s.writeSchedule v (expandKey v s.key.toList)).complete .none) := by
  unfold execExpand
  rw [hv]
  rfl

/-- The words EXPAND makes number the schedule length (42_key_schedule.md R144). -/
theorem expandKey_key_length (s : State) (v : Variant) : (expandKey v s.key.toList).length = v.words :=
  expandKey_length v _ (by have := nk_le_eight v; simp; omega)

/-- The words of SCHED after EXPAND: the new ones, and above them those from before (42_key_schedule.md R146). -/
theorem schedWord_writeSchedule (s : State) (v : Variant) (w : List Word) (i : Nat) (h : i < 60) :
    schedWord (s.writeSchedule v w).sched i = (w[i]?).getD (schedWord s.sched i) := by
  rw [schedWord_of_lt _ _ h, schedWord_of_lt _ _ h]
  simp [State.writeSchedule]

/-- All that a command can do: report an error and change nothing else, succeed with no result (NOP), write RESULT,
write STATE, or make a schedule resident (EXPAND). -/
theorem exec_cases {i : Instr} {s t : State} (h : exec i s = .next t) :
    (∃ code, code ≠ .none ∧ t = s.complete code) ∨
      t = s.complete .none ∨
      (∃ v, t = (s.writeResult v).complete .none) ∨
      (∃ b, t = (s.writeBlock b).complete .none) ∨
      (∃ v, i = .expand ∧ Variant.ofKeyLen s.ctrl.keyLen = some v ∧
        t = (s.writeSchedule v (expandKey v s.key.toList)).complete .none) := by
  have result : ∀ v, finishResult v s = .next t → ∃ v, t = (s.writeResult v).complete .none :=
    fun v e => ⟨v, by cases e; rfl⟩
  have block : ∀ b, finishBlock b s = .next t → ∃ b, t = (s.writeBlock b).complete .none :=
    fun b e => ⟨b, by cases e; rfl⟩
  have failed : ∀ c, c ≠ .none → raiseError c s = .next t → ∃ code, code ≠ .none ∧ t = s.complete code :=
    fun c hc e => ⟨c, hc, by cases e; rfl⟩
  cases i with
  | nop => exact .inr (.inl (by cases h; rfl))
  | gadd | gdbl | gtpl | gmul | mixcol | invmixcol | subb | invsubb | subw | rotw =>
    exact .inr (.inr (.inl (result _ h)))
  | wbyte index =>
    simp only [exec, execWbyte] at h
    split at h
    · exact .inr (.inr (.inl (result _ h)))
    · exact .inl (failed _ (by decide) h)
  | expand =>
    simp only [exec, execExpand] at h
    split at h
    · exact .inl (failed _ (by decide) h)
    · next v hv => exact .inr (.inr (.inr (.inr ⟨v, rfl, hv, by cases h; rfl⟩)))
  | subbytes | invsubbytes | shiftrows | invshiftrows | mixcols | invmixcols =>
    exact .inr (.inr (.inr (.inl (block _ h))))
  | addrk round =>
    simp only [exec, execAddrk] at h
    split at h
    · exact .inl (failed _ (by decide) h)
    · split at h
      · exact .inl (failed _ (by decide) h)
      · exact .inr (.inr (.inr (.inl (block _ h))))
  | encrypt =>
    simp only [exec, execEncrypt] at h
    split at h
    · exact .inl (failed _ (by decide) h)
    · exact .inr (.inr (.inr (.inl (block _ h))))
  | decrypt =>
    simp only [exec, execDecrypt] at h
    split at h
    · exact .inl (failed _ (by decide) h)
    · exact .inr (.inr (.inr (.inl (block _ h))))

/-- The engine's step runs the decoded command, or reports an illegal word (44_control.md R192). -/
theorem engineStep_cases {s t : State} (h : engineStep s = .next t) :
    (∃ i, decode s.pend = .ok i ∧ exec i s = .next t) ∨
      (∃ r, decode s.pend = .illegal r ∧ t = s.complete .illegalCommand) := by
  unfold engineStep at h
  split at h
  · next i hd => exact .inl ⟨i, hd, h⟩
  · next r hd => exact .inr ⟨r, hd, by cases h; rfl⟩

end Sys2Proof.Machine
end

