-- ==== Sys2Proof/Laws/Flags.lean ====
section
/-! SUPPORT. What each update of STATUS does to each of its fields, and how the fields stand in the word. -/

namespace Sys2Proof.Machine.Status

variable (t : Status)

@[simp] theorem issued_busy : (t.issued).busy = true := rfl
@[simp] theorem issued_done : (t.issued).done = false := rfl
@[simp] theorem issued_keyValid : (t.issued).keyValid = t.keyValid := rfl
@[simp] theorem issued_kvar : (t.issued).kvar = t.kvar := rfl
@[simp] theorem issued_ovr : (t.issued).ovr = t.ovr := rfl
@[simp] theorem issued_err : (t.issued).err = .none := rfl

@[simp] theorem completed_busy (code : ErrCode) : (t.completed code).busy = false := rfl
@[simp] theorem completed_done (code : ErrCode) : (t.completed code).done = true := rfl
@[simp] theorem completed_keyValid (code : ErrCode) : (t.completed code).keyValid = t.keyValid := rfl
@[simp] theorem completed_kvar (code : ErrCode) : (t.completed code).kvar = t.kvar := rfl
@[simp] theorem completed_ovr (code : ErrCode) : (t.completed code).ovr = t.ovr := rfl
@[simp] theorem completed_err (code : ErrCode) : (t.completed code).err = code := rfl

@[simp] theorem dropped_busy : (t.dropped).busy = t.busy := rfl
@[simp] theorem dropped_done : (t.dropped).done = t.done := rfl
@[simp] theorem dropped_keyValid : (t.dropped).keyValid = t.keyValid := rfl
@[simp] theorem dropped_kvar : (t.dropped).kvar = t.kvar := rfl
@[simp] theorem dropped_ovr : (t.dropped).ovr = true := rfl
@[simp] theorem dropped_err : (t.dropped).err = t.err := rfl

@[simp] theorem acked_busy (v : Word) : (t.acked v).busy = t.busy := rfl
@[simp] theorem acked_done (v : Word) : (t.acked v).done = (t.done && !v.getLsbD 1) := rfl
@[simp] theorem acked_keyValid (v : Word) : (t.acked v).keyValid = t.keyValid := rfl
@[simp] theorem acked_kvar (v : Word) : (t.acked v).kvar = t.kvar := rfl
@[simp] theorem acked_ovr (v : Word) : (t.acked v).ovr = (t.ovr && !v.getLsbD 5) := rfl
@[simp] theorem acked_err (v : Word) : (t.acked v).err = t.err := rfl

@[simp] theorem resident_busy (v : Variant) : (t.resident v).busy = t.busy := rfl
@[simp] theorem resident_done (v : Variant) : (t.resident v).done = t.done := rfl
@[simp] theorem resident_keyValid (v : Variant) : (t.resident v).keyValid = true := rfl
@[simp] theorem resident_kvar (v : Variant) : (t.resident v).kvar = v := rfl
@[simp] theorem resident_ovr (v : Variant) : (t.resident v).ovr = t.ovr := rfl
@[simp] theorem resident_err (v : Variant) : (t.resident v).err = t.err := rfl

end Sys2Proof.Machine.Status

namespace Sys2Proof.Machine

/-- Reserved bits of CTRL are not stored, and the rest read back as written (10_state.md R24). -/
theorem ctrl_word_ofWord (v : Word) : (Ctrl.ofWord v).word = v &&& 0x1ff#32 := by
  unfold Ctrl.word Ctrl.ofWord flagBit
  ext i hi
  rcases Nat.lt_or_ge i 8 with h | h
  · have : i ≠ 8 := by omega
    interval_cases i <;> cases v.getLsbD 8 <;> simp
  · by_cases h8 : i = 8
    · subst h8
      cases hv : v.getLsbD 8 <;> simp_all
    · have h9 : 9 ≤ i := by omega
      interval_cases i <;> cases v.getLsbD 8 <;> simp

end Sys2Proof.Machine
end

