-- ==== Sys2Proof/Laws/Galois.lean ====
section
/-! SUPPORT. The laws of the Galois-field functions: `xtime` and `gmul` respect exclusive-or, and `gmul` is a sum of
doublings (spec/40_gf_arith.md R100 to R104). -/

namespace Sys2Proof.Machine

@[simp] theorem xtime_zero : xtime 0#8 = 0#8 := by decide

/-- Doubling respects the field's addition. -/
theorem xtime_xor (a b : Byte) : xtime (a ^^^ b) = xtime a ^^^ xtime b := by
  unfold xtime
  simp only [BitVec.getLsbD_xor]
  cases a.getLsbD 7 <;> cases b.getLsbD 7 <;> ext i hi <;> simp <;> grind

/-- The loop without early termination: the doublings of `a` selected by the bits of `b`. -/
def doublingSum : Nat → Byte → Byte → Byte
  | 0, _, _ => 0
  | n + 1, a, b => (if b.getLsbD 0 then a else 0) ^^^ doublingSum n (xtime a) (b >>> 1)

@[simp] theorem doublingSum_zero_left (n : Nat) (b : Byte) : doublingSum n 0#8 b = 0#8 := by
  induction n generalizing b with
  | zero => rfl
  | succ n ih => simp [doublingSum, ih]

@[simp] theorem doublingSum_zero_right (n : Nat) (a : Byte) : doublingSum n a 0#8 = 0#8 := by
  induction n generalizing a with
  | zero => rfl
  | succ n ih => simp [doublingSum, ih]

/-- "The early exit never changes the result" (40_gf_arith.md R104). -/
theorem gmulLoop_eq (n : Nat) (a b acc : Byte) : gmulLoop n a b acc = acc ^^^ doublingSum n a b := by
  induction n generalizing a b acc with
  | zero => simp [gmulLoop, doublingSum]
  | succ n ih =>
    unfold gmulLoop
    split
    · next h => rcases h with rfl | rfl <;> simp
    · rw [ih, doublingSum]
      split <;> simp [BitVec.xor_assoc]

theorem gmul_eq_doublingSum (a b : Byte) : gmul a b = doublingSum 8 a b := by
  simp only [gmul, gmulLoop_eq]
  exact BitVec.zero_xor

theorem doublingSum_xor_left (n : Nat) (a a' b : Byte) :
    doublingSum n (a ^^^ a') b = doublingSum n a b ^^^ doublingSum n a' b := by
  induction n generalizing a a' b with
  | zero => simp [doublingSum]
  | succ n ih =>
    simp only [doublingSum, xtime_xor, ih]
    cases b.getLsbD 0
    · simp
    · ext i hi
      simp
      grind

theorem doublingSum_xor_right (n : Nat) (a b b' : Byte) :
    doublingSum n a (b ^^^ b') = doublingSum n a b ^^^ doublingSum n a b' := by
  induction n generalizing a b b' with
  | zero => simp [doublingSum]
  | succ n ih =>
    have hs : (b ^^^ b') >>> 1 = b >>> 1 ^^^ b' >>> 1 := BitVec.ushiftRight_xor_distrib b b' 1
    simp only [doublingSum, hs, ih, BitVec.getLsbD_xor]
    cases b.getLsbD 0 <;> cases b'.getLsbD 0 <;> ext i hi <;> simp <;> grind

/-- Multiplication distributes over the field's addition, on the left. -/
theorem gmul_xor_left (a a' b : Byte) : gmul (a ^^^ a') b = gmul a b ^^^ gmul a' b := by
  simp only [gmul_eq_doublingSum, doublingSum_xor_left]

/-- Multiplication distributes over the field's addition, on the right. -/
theorem gmul_xor_right (a b b' : Byte) : gmul a (b ^^^ b') = gmul a b ^^^ gmul a b' := by
  simp only [gmul_eq_doublingSum, doublingSum_xor_right]

@[simp] theorem gmul_one_left (b : Byte) : gmul 1 b = b := by
  revert b
  decide +kernel

theorem gmul_two_left (b : Byte) : gmul 2 b = xtime b := by
  revert b
  decide +kernel

theorem gmul_three_left (b : Byte) : gmul 3 b = gtriple b := by
  revert b
  decide +kernel

theorem gmul_nine_left (b : Byte) : gmul 9 b = xtime (xtime (xtime b)) ^^^ b := by
  revert b
  decide +kernel

theorem gmul_eleven_left (b : Byte) : gmul 11 b = xtime (xtime (xtime b)) ^^^ xtime b ^^^ b := by
  revert b
  decide +kernel

theorem gmul_thirteen_left (b : Byte) : gmul 13 b = xtime (xtime (xtime b)) ^^^ xtime (xtime b) ^^^ b := by
  revert b
  decide +kernel

theorem gmul_fourteen_left (b : Byte) : gmul 14 b = xtime (xtime (xtime b)) ^^^ xtime (xtime b) ^^^ xtime b := by
  revert b
  decide +kernel

/-! ### The two matrices are inverses

Every row of a mixing matrix is the first row turned, so the output bytes of a mixer are one function of the column's
bytes in turned order. -/

/-- The first row of the matrix with the coefficients `p q r s`, times the bytes of a column. -/
def topRow (p q r s a b c d : Byte) : Byte := gmul p a ^^^ gmul q b ^^^ gmul r c ^^^ gmul s d

theorem mixColumn_ofBytes (a b c d : Byte) :
    mixColumn (ofBytes a b c d) =
      ofBytes (topRow 2 3 1 1 a b c d) (topRow 2 3 1 1 b c d a) (topRow 2 3 1 1 c d a b) (topRow 2 3 1 1 d a b c) := by
  simp only [mixColumn, mixRow, topRow, byteOf_ofBytes_zero, byteOf_ofBytes_one, byteOf_ofBytes_two,
    byteOf_ofBytes_three]
  congr 1 <;> ac_rfl

theorem invMixColumn_ofBytes (a b c d : Byte) :
    invMixColumn (ofBytes a b c d) =
      ofBytes (topRow 14 11 13 9 a b c d) (topRow 14 11 13 9 b c d a) (topRow 14 11 13 9 c d a b)
        (topRow 14 11 13 9 d a b c) := by
  simp only [invMixColumn, mixRow, topRow, byteOf_ofBytes_zero, byteOf_ofBytes_one, byteOf_ofBytes_two,
    byteOf_ofBytes_three]
  congr 1 <;> ac_rfl

/-- One first row times the output of another mixer, regrouped by the bytes of the column. -/
theorem topRow_topRow (m0 m1 m2 m3 p q r s a b c d : Byte) :
    topRow m0 m1 m2 m3 (topRow p q r s a b c d) (topRow p q r s b c d a) (topRow p q r s c d a b)
        (topRow p q r s d a b c) =
      (gmul m0 (gmul p a) ^^^ gmul m1 (gmul s a) ^^^ gmul m2 (gmul r a) ^^^ gmul m3 (gmul q a))
        ^^^ (gmul m0 (gmul q b) ^^^ gmul m1 (gmul p b) ^^^ gmul m2 (gmul s b) ^^^ gmul m3 (gmul r b))
        ^^^ (gmul m0 (gmul r c) ^^^ gmul m1 (gmul q c) ^^^ gmul m2 (gmul p c) ^^^ gmul m3 (gmul s c))
        ^^^ (gmul m0 (gmul s d) ^^^ gmul m1 (gmul r d) ^^^ gmul m2 (gmul q d) ^^^ gmul m3 (gmul p d)) := by
  simp only [topRow, gmul_xor_right]
  ac_rfl

theorem invMix_mix_same (x : Byte) :
    gmul 14 (gmul 2 x) ^^^ gmul 11 (gmul 1 x) ^^^ gmul 13 (gmul 1 x) ^^^ gmul 9 (gmul 3 x) = x := by
  simp only [gmul_one_left, gmul_two_left, gmul_three_left, gmul_nine_left, gmul_eleven_left, gmul_thirteen_left,
    gmul_fourteen_left, gtriple, xtime_xor]
  ext i hi
  simp
  grind

theorem invMix_mix_next (x : Byte) :
    gmul 14 (gmul 3 x) ^^^ gmul 11 (gmul 2 x) ^^^ gmul 13 (gmul 1 x) ^^^ gmul 9 (gmul 1 x) = 0#8 := by
  simp only [gmul_one_left, gmul_two_left, gmul_three_left, gmul_nine_left, gmul_eleven_left, gmul_thirteen_left,
    gmul_fourteen_left, gtriple, xtime_xor]
  ext i hi
  simp
  grind

theorem invMix_mix_far (x : Byte) :
    gmul 14 (gmul 1 x) ^^^ gmul 11 (gmul 3 x) ^^^ gmul 13 (gmul 2 x) ^^^ gmul 9 (gmul 1 x) = 0#8 := by
  simp only [gmul_one_left, gmul_two_left, gmul_three_left, gmul_nine_left, gmul_eleven_left, gmul_thirteen_left,
    gmul_fourteen_left, gtriple, xtime_xor]
  ext i hi
  simp
  grind

theorem invMix_mix_last (x : Byte) :
    gmul 14 (gmul 1 x) ^^^ gmul 11 (gmul 1 x) ^^^ gmul 13 (gmul 3 x) ^^^ gmul 9 (gmul 2 x) = 0#8 := by
  simp only [gmul_one_left, gmul_two_left, gmul_three_left, gmul_nine_left, gmul_eleven_left, gmul_thirteen_left,
    gmul_fourteen_left, gtriple, xtime_xor]
  ext i hi
  simp
  grind

theorem mix_invMix_same (x : Byte) :
    gmul 2 (gmul 14 x) ^^^ gmul 3 (gmul 9 x) ^^^ gmul 1 (gmul 13 x) ^^^ gmul 1 (gmul 11 x) = x := by
  simp only [gmul_one_left, gmul_two_left, gmul_three_left, gmul_nine_left, gmul_eleven_left, gmul_thirteen_left,
    gmul_fourteen_left, gtriple, xtime_xor]
  ext i hi
  simp
  grind

theorem mix_invMix_next (x : Byte) :
    gmul 2 (gmul 11 x) ^^^ gmul 3 (gmul 14 x) ^^^ gmul 1 (gmul 9 x) ^^^ gmul 1 (gmul 13 x) = 0#8 := by
  simp only [gmul_one_left, gmul_two_left, gmul_three_left, gmul_nine_left, gmul_eleven_left, gmul_thirteen_left,
    gmul_fourteen_left, gtriple, xtime_xor]
  ext i hi
  simp
  grind

theorem mix_invMix_far (x : Byte) :
    gmul 2 (gmul 13 x) ^^^ gmul 3 (gmul 11 x) ^^^ gmul 1 (gmul 14 x) ^^^ gmul 1 (gmul 9 x) = 0#8 := by
  simp only [gmul_one_left, gmul_two_left, gmul_three_left, gmul_nine_left, gmul_eleven_left, gmul_thirteen_left,
    gmul_fourteen_left, gtriple, xtime_xor]
  ext i hi
  simp
  grind

theorem mix_invMix_last (x : Byte) :
    gmul 2 (gmul 9 x) ^^^ gmul 3 (gmul 13 x) ^^^ gmul 1 (gmul 11 x) ^^^ gmul 1 (gmul 14 x) = 0#8 := by
  simp only [gmul_one_left, gmul_two_left, gmul_three_left, gmul_nine_left, gmul_eleven_left, gmul_thirteen_left,
    gmul_fourteen_left, gtriple, xtime_xor]
  ext i hi
  simp
  grind

/-- The inverse mixer undoes the mixer (40_gf_arith.md R108). -/
theorem invMixColumn_mixColumn (w : Word) : invMixColumn (mixColumn w) = w := by
  rw [← ofBytes_byteOf w, mixColumn_ofBytes, invMixColumn_ofBytes]
  simp only [topRow_topRow, invMix_mix_same, invMix_mix_next, invMix_mix_far, invMix_mix_last, BitVec.xor_zero]

/-- The mixer undoes the inverse mixer (40_gf_arith.md R108). -/
theorem mixColumn_invMixColumn (w : Word) : mixColumn (invMixColumn w) = w := by
  rw [← ofBytes_byteOf w, invMixColumn_ofBytes, mixColumn_ofBytes]
  simp only [topRow_topRow, mix_invMix_same, mix_invMix_next, mix_invMix_far, mix_invMix_last, BitVec.xor_zero]

end Sys2Proof.Machine
end

