-- ==== Sys2Proof/Laws/PerInstr.lean ====
section
/-! SUPPORT. The law RoundTrip, one lemma for each command: an instruction that has an encoding is what the decoder
reads from it (spec/30_encoding.md R84, R88). -/

namespace Sys2Proof.Laws.RoundTrip

/-- The decoder reads a well-formed instruction back from its encoding. -/
def Statement (i : Instr) : Prop := i.wf = true → decode (encode i) = .ok i

theorem nop : Statement .nop := fun _ => by decide
theorem gadd : Statement .gadd := fun _ => by decide
theorem gdbl : Statement .gdbl := fun _ => by decide
theorem gtpl : Statement .gtpl := fun _ => by decide
theorem gmul : Statement .gmul := fun _ => by decide
theorem mixcol : Statement .mixcol := fun _ => by decide
theorem invmixcol : Statement .invmixcol := fun _ => by decide
theorem subb : Statement .subb := fun _ => by decide
theorem invsubb : Statement .invsubb := fun _ => by decide
theorem subw : Statement .subw := fun _ => by decide

theorem wbyte (index : Nat) : Statement (.wbyte index) := by
  have all : ∀ n < 256, decode (encode (.wbyte n)) = .ok (.wbyte n) := by decide +kernel
  intro h
  simp only [Instr.wf, decide_eq_true_eq] at h
  exact all index (by omega)

theorem rotw : Statement .rotw := fun _ => by decide
theorem expand : Statement .expand := fun _ => by decide
theorem subbytes : Statement .subbytes := fun _ => by decide
theorem invsubbytes : Statement .invsubbytes := fun _ => by decide
theorem shiftrows : Statement .shiftrows := fun _ => by decide
theorem invshiftrows : Statement .invshiftrows := fun _ => by decide
theorem mixcols : Statement .mixcols := fun _ => by decide
theorem invmixcols : Statement .invmixcols := fun _ => by decide

theorem addrk (round : Nat) : Statement (.addrk round) := by
  have all : ∀ n < 256, decode (encode (.addrk n)) = .ok (.addrk n) := by decide +kernel
  intro h
  simp only [Instr.wf, decide_eq_true_eq] at h
  exact all round (by omega)

theorem encrypt : Statement .encrypt := fun _ => by decide
theorem decrypt : Statement .decrypt := fun _ => by decide

end Sys2Proof.Laws.RoundTrip
end

