-- ==== Sys2Proof/Laws/Substitution.lean ====
section
/-! SUPPORT. The substitution tables undo each other (spec/41_substitution.md R121, R123). -/

namespace Sys2Proof.Machine

theorem invSubByte_subByte (b : Byte) : invSubByte (subByte b) = b := by
  revert b
  decide +kernel

theorem subByte_invSubByte (b : Byte) : subByte (invSubByte b) = b := by
  revert b
  decide +kernel

theorem invSubWord_subWord (w : Word) : invSubWord (subWord w) = w :=
  mapBytes_mapBytes _ _ invSubByte_subByte w

theorem subWord_invSubWord (w : Word) : subWord (invSubWord w) = w :=
  mapBytes_mapBytes _ _ subByte_invSubByte w

@[simp] theorem byteOf_subWord (w : Word) (i : Fin 4) : byteOf (subWord w) i = subByte (byteOf w i) :=
  byteOf_mapBytes ..

end Sys2Proof.Machine
end

