-- ==== Sys2Proof/Laws/RoundPipeline.lean ====
section
/-! SUPPORT. The laws of the round pipeline: each State transform and its inverse, a round key added twice, and the
rounds of the two block transforms (spec/43_round_pipeline.md R161 to R168). -/

namespace Sys2Proof.Machine

theorem invSubBytes_subBytes (b : Block) : invSubBytes (subBytes b) = b :=
  mapCols_mapCols _ _ invSubWord_subWord b

theorem subBytes_invSubBytes (b : Block) : subBytes (invSubBytes b) = b :=
  mapCols_mapCols _ _ subWord_invSubWord b

theorem invMixColumns_mixColumns (b : Block) : invMixColumns (mixColumns b) = b :=
  mapCols_mapCols _ _ invMixColumn_mixColumn b

theorem mixColumns_invMixColumns (b : Block) : mixColumns (invMixColumns b) = b :=
  mapCols_mapCols _ _ mixColumn_invMixColumn b

@[simp] theorem elem_shiftRows (b : Block) (r c : Fin 4) : (shiftRows b).elem r c = b.elem r (c + r) := elem_ofElems ..

@[simp] theorem elem_invShiftRows (b : Block) (r c : Fin 4) : (invShiftRows b).elem r c = b.elem r (c - r) :=
  elem_ofElems ..

theorem invShiftRows_shiftRows (b : Block) : invShiftRows (shiftRows b) = b :=
  block_ext fun r c => by simp

theorem shiftRows_invShiftRows (b : Block) : shiftRows (invShiftRows b) = b :=
  block_ext fun r c => by simp

/-- A round key added twice is no change (43_round_pipeline.md R168). -/
theorem addRoundKey_addRoundKey (sched : Vector Word 60) (rk : Nat) (b : Block) :
    addRoundKey sched rk (addRoundKey sched rk b) = b := by
  simp [addRoundKey, addKey]

/-- Each element takes the byte in its row of the schedule word of its column (43_round_pipeline.md R165). -/
theorem elem_addRoundKey (sched : Vector Word 60) (rk : Nat) (b : Block) (r c : Fin 4) :
    (addRoundKey sched rk b).elem r c = b.elem r c ^^^ byteOf (schedWord sched (4 * rk + c.val)) r := by
  have col : (addRoundKey sched rk b).col c = b.col c ^^^ schedWord sched (4 * rk + c.val) := by
    fin_cases c <;> rfl
  simp [Block.elem, col]

/-- An encryption round undoes a decryption round. -/
theorem encryptRound_decryptRound (sched : Vector Word 60) (round : Nat) (b : Block) :
    encryptRound sched (decryptRound sched b round) round = b := by
  rw [decryptRound, encryptRound, subBytes_invSubBytes, shiftRows_invShiftRows, mixColumns_invMixColumns,
    addRoundKey_addRoundKey]

/-- A decryption round, as the decryption orders its steps, undoes an encryption round. -/
theorem decryptRound_encryptRound (sched : Vector Word 60) (round : Nat) (b : Block) :
    decryptRound sched (encryptRound sched b round) round = b := by
  rw [decryptRound, encryptRound, addRoundKey_addRoundKey, invMixColumns_mixColumns, invShiftRows_shiftRows,
    invSubBytes_subBytes]

end Sys2Proof.Machine
end

