-- ==== Sys2Proof/Laws/Window.lean ====
section
/-! SUPPORT. The laws of the register window: names and offsets agree, and what a host write can change
(spec/10_state.md R22, 70_reset_and_hazards.md R235). -/

namespace Sys2Proof.Machine

/-- The offset of a named register selects it (10_state.md R22). -/
@[simp] theorem regAt_offset (r : Reg) : regAt r.offset = r := by
  cases r with
  | key k => revert k; decide
  | state j => revert j; decide
  | sched i => revert i; decide +kernel
  | _ => rfl

theorem offset_lt (r : Reg) : r.offset < 0x200 := by
  cases r <;> simp only [Reg.offset] <;> omega

theorem offset_mod (r : Reg) : r.offset % 4 = 0 := by
  cases r <;> simp only [Reg.offset] <;> omega

/-- A legal access acts on the register at its offset (20_memory.md R62). -/
theorem access_legal (off : Nat) (act : Reg → State) (h1 : off < 0x200) (h2 : off % 4 = 0) :
    access off 4 act = .next (act (regAt off)) := by
  unfold access
  rw [if_neg (by omega), if_pos ⟨rfl, h2⟩]

/-- All that an access can do (20_memory.md R61, R62, R63). -/
theorem access_cases (off width : Nat) (act : Reg → State) :
    (off < 0x200 ∧ width = 4 ∧ off % 4 = 0 ∧ access off width act = .next (act (regAt off))) ∨
      (off < 0x200 ∧ ¬(width = 4 ∧ off % 4 = 0) ∧ access off width act = .fault .busAccess) ∨
      (0x200 ≤ off ∧ access off width act = .refused .outsideWindow) := by
  unfold access
  split
  · exact .inr (.inr ⟨‹_›, rfl⟩)
  · split
    · next h1 h2 => exact .inl ⟨by omega, h2.1, h2.2, rfl⟩
    · exact .inr (.inl ⟨by omega, ‹_›, rfl⟩)

theorem access_next {off width : Nat} {act : Reg → State} {t : State} (h : access off width act = .next t) :
    off < 0x200 ∧ width = 4 ∧ off % 4 = 0 ∧ t = act (regAt off) := by
  rcases access_cases off width act with ⟨h1, h2, h3, e⟩ | ⟨_, _, e⟩ | ⟨_, e⟩ <;> rw [e] at h
  · exact ⟨h1, h2, h3, by cases h; rfl⟩
  · cases h
  · cases h

/-- A write that is dropped or stored: the two cases of a read-write register (70_reset_and_hazards.md R235). -/
theorem store_cases (s stored : State) :
    (s.status.busy = true ∧ s.store stored = s.dropWrite) ∨ (s.status.busy = false ∧ s.store stored = stored) := by
  unfold State.store
  cases s.status.busy <;> simp

/-- All that a host write can do: nothing, clear STATUS bits, be dropped, or, while idle, change one read-write
register or issue a command. -/
theorem writeReg_cases (s : State) (r : Reg) (v : Word) :
    ((r = .id ∨ r = .result ∨ (∃ i, r = .sched i) ∨ r = .reserved) ∧ s.writeReg r v = s) ∨
      (r = .status ∧ s.writeReg r v = s.ackStatus v) ∨
      (s.status.busy = true ∧ s.writeReg r v = s.dropWrite) ∨
      (s.status.busy = false ∧
        ((r = .ctrl ∧ s.writeReg r v = { s with ctrl := Ctrl.ofWord v }) ∨
          (r = .cmd ∧ s.writeReg r v = s.issue v) ∨
          (r = .opa ∧ s.writeReg r v = { s with opa := v }) ∨
          (r = .opb ∧ s.writeReg r v = { s with opb := v }) ∨
          (∃ k, r = .key k ∧ s.writeReg r v = { s with key := s.key.set k v }) ∨
          (∃ j, r = .state j ∧ s.writeReg r v = { s with state := s.state.setCol v j }))) := by
  cases r <;> simp [State.writeReg, State.store] <;> cases s.status.busy <;> simp

end Sys2Proof.Machine
end

