-- ==== Sys2Proof/Laws/Step.lean ====
section
/-! SUPPORT. What a step of the host and a step of the machine can do, said once (spec/20_memory.md R71,
70_reset_and_hazards.md R240). -/

namespace Sys2Proof.Machine

/-- Who moves: the engine exactly when a command is in flight, reset is not asserted and the turn is not the host's. -/
theorem engineTurn_iff (s : State) :
    s.engineTurn = true ↔ s.status.busy = true ∧ s.inReset = false ∧ s.turns.head? ≠ some .host := by
  simp [State.engineTurn, and_assoc]

/-- A step is the engine's or the host's. -/
theorem step_cases {s t : State} (h : step s = .next t) :
    (s.engineTurn = true ∧ engineStep s.takeTurn = .next t) ∨
      (s.engineTurn = false ∧ hostStep s.takeTurn = .next t) := by
  unfold step at h
  split at h
  · next ht => exact .inl ⟨ht, h⟩
  · next ht => exact .inr ⟨by simpa using ht, h⟩

/-- A step with the engine to move is the engine's, with its turn used up. -/
theorem step_engine {s : State} (h : s.engineTurn = true) : step s = engineStep s.takeTurn := by
  rw [step, if_pos h]

/-- The host out of reset, with no poll to repeat, performs its next operation. -/
theorem hostStep_next {s : State} {op : HostOp} {rest : List HostOp} (hops : s.hostOps = op :: rest)
    (hr : s.inReset = false) (hw : op ≠ .wait ∨ s.status.busy = false) :
    hostStep s = hostAct op { s with hostOps := rest } := by
  have h : ¬(op = .wait ∧ s.status.busy = true) := by
    rintro ⟨rfl, hb⟩
    rcases hw with hw | hw
    · exact hw rfl
    · exact absurd (hb.symm.trans hw) (by decide)
  simp [hostStep, hops, hr, h]

/-- A poll of WAIT that reads BUSY = 1 leaves WAIT to poll again (30_encoding.md R89). -/
theorem hostStep_poll {s : State} {rest : List HostOp} (hops : s.hostOps = .wait :: rest) (hr : s.inReset = false)
    (hb : s.status.busy = true) : hostStep s = .next (s.readReg .status) := by
  simp [hostStep, hops, hr, hb]

/-- While reset is asserted the host's next operation is taken for what it does to the reset line
(70_reset_and_hazards.md R230). -/
theorem hostStep_inReset {s : State} {op : HostOp} {rest : List HostOp} (hops : s.hostOps = op :: rest)
    (hr : s.inReset = true) : hostStep s = hostActInReset op { s with hostOps := rest } := by
  simp [hostStep, hops, hr]

/-- A step with the host to move is the host's, with its turn used up. -/
theorem step_host {s : State} (h : s.engineTurn = false) : step s = hostStep s.takeTurn := by
  rw [step, if_neg (by simp [h])]

/-- All that an operation of the host can do, from a state whose list it has been taken from. -/
theorem hostAct_cases {op : HostOp} {s t : State} (h : hostAct op s = .next t) :
    (∃ off, off < 0x200 ∧ off % 4 = 0 ∧
        ((op = .read off 4 ∧ t = s.readReg (regAt off)) ∨
          (∃ v, op = .write off 4 v ∧ t = s.writeReg (regAt off) v) ∨
          (∃ name, op = .readKeep name off ∧ t = s.keep name (regAt off)) ∨
          (∃ name v, op = .writeKept name off ∧ s.hostNames.lookup name = some v ∧
            t = s.writeReg (regAt off) v))) ∨
      (op = .wait ∧ t = s.readReg .status) ∨
      (op = .assertReset ∧ t = s.applyReset) ∨
      (op = .releaseReset ∧ t = { s with inReset := false }) := by
  cases op with
  | read off width =>
    rw [hostAct] at h
    obtain ⟨h1, rfl, h3, rfl⟩ := access_next h
    exact .inl ⟨off, h1, h3, .inl ⟨rfl, rfl⟩⟩
  | write off width v =>
    rw [hostAct] at h
    obtain ⟨h1, rfl, h3, rfl⟩ := access_next h
    exact .inl ⟨off, h1, h3, .inr (.inl ⟨v, rfl, rfl⟩)⟩
  | readKeep name off =>
    rw [hostAct] at h
    obtain ⟨h1, _, h3, rfl⟩ := access_next h
    exact .inl ⟨off, h1, h3, .inr (.inr (.inl ⟨name, rfl, rfl⟩))⟩
  | writeKept name off =>
    simp only [hostAct] at h
    split at h
    · next v hv =>
      obtain ⟨h1, _, h3, rfl⟩ := access_next h
      exact .inl ⟨off, h1, h3, .inr (.inr (.inr ⟨name, v, rfl, hv, rfl⟩))⟩
    · cases h
  | wait => exact .inr (.inl ⟨rfl, by cases h; rfl⟩)
  | assertReset => exact .inr (.inr (.inl ⟨rfl, by cases h; rfl⟩))
  | releaseReset => exact .inr (.inr (.inr ⟨rfl, by cases h; rfl⟩))

/-- All that a step of the host can do. -/
theorem hostStep_cases {s t : State} (h : hostStep s = .next t) :
    (s.hostOps = [] ∧ t = s) ∨
      (∃ rest, s.hostOps = .wait :: rest ∧ s.inReset = false ∧ s.status.busy = true ∧ t = s.readReg .status) ∨
      (∃ op rest, s.hostOps = op :: rest ∧ s.inReset = false ∧ ¬(op = .wait ∧ s.status.busy = true) ∧
        hostAct op { s with hostOps := rest } = .next t) ∨
      (∃ rest, s.hostOps = .assertReset :: rest ∧ s.inReset = true ∧
        t = ({ s with hostOps := rest } : State).applyReset) ∨
      (∃ rest, s.hostOps = .releaseReset :: rest ∧ s.inReset = true ∧
        t = { s with hostOps := rest, inReset := false }) := by
  unfold hostStep at h
  split at h
  · exact .inl ⟨‹_›, by cases h; rfl⟩
  · next op rest hops =>
    split at h
    · next hr =>
      cases op with
      | assertReset => exact .inr (.inr (.inr (.inl ⟨rest, hops, hr, by cases h; rfl⟩)))
      | releaseReset => exact .inr (.inr (.inr (.inr ⟨rest, hops, hr, by cases h; rfl⟩)))
      | read off width => cases h
      | write off width v => cases h
      | readKeep name off => cases h
      | writeKept name off => cases h
      | wait => cases h
    · next hr =>
      have hr : s.inReset = false := by simpa using hr
      split at h
      · next hw =>
        obtain ⟨rfl, hb⟩ := hw
        exact .inr (.inl ⟨rest, hops, hr, by simpa using hb, by cases h; rfl⟩)
      · next hw => exact .inr (.inr (.inl ⟨op, rest, hops, hr, by simpa using hw, h⟩))

end Sys2Proof.Machine
end

