-- ==== Sys2Proof/Tests/Slice0.lean ====
section
/-! SUPPORT. Small tests whose expected values are those of spec/95_test_vectors.md or of the examples in the rules,
and for each obligation with hypotheses a state and operands that meet them. -/

namespace Sys2Proof.Tests

open Sys2Proof.Machine Sys2Proof.Statement

/-! ### Well-formed instructions: what has no encoding is refused (30_encoding.md R88) -/

theorem test_wf_wbyte_limit : (Instr.wbyte 255).wf = true ∧ (Instr.wbyte 256).wf = false := by decide

theorem test_wf_addrk_limit : (Instr.addrk 255).wf = true ∧ (Instr.addrk 256).wf = false := by decide

/-! ### Decoding: each command by its word, written out from 30_encoding.md R82 and R84 -/

theorem test_decode_control : decode 0b00000000000000000000000000000000#32 = .ok .nop := by decide

theorem test_decode_galois :
    decode 0b00000000000000000000000000010000#32 = .ok .gadd ∧
      decode 0b00000000000000000000000000010001#32 = .ok .gdbl ∧
      decode 0b00000000000000000000000000010010#32 = .ok .gtpl ∧
      decode 0b00000000000000000000000000010011#32 = .ok .gmul ∧
      decode 0b00000000000000000000000000010100#32 = .ok .mixcol ∧
      decode 0b00000000000000000000000000010101#32 = .ok .invmixcol := by decide

theorem test_decode_substitution :
    decode 0b00000000000000000000000000100000#32 = .ok .subb ∧
      decode 0b00000000000000000000000000100001#32 = .ok .invsubb ∧
      decode 0b00000000000000000000000000100010#32 = .ok .subw ∧
      decode 0b00000000000000001000000100100011#32 = .ok (.wbyte 0x81) := by decide

theorem test_decode_key_schedule :
    decode 0b00000000000000000000000000110000#32 = .ok .rotw ∧
      decode 0b00000000000000000000000000110001#32 = .ok .expand := by decide

theorem test_decode_state_transforms :
    decode 0b00000000000000000000000001000000#32 = .ok .subbytes ∧
      decode 0b00000000000000000000000001000001#32 = .ok .invsubbytes ∧
      decode 0b00000000000000000000000001000010#32 = .ok .shiftrows ∧
      decode 0b00000000000000000000000001000011#32 = .ok .invshiftrows ∧
      decode 0b00000000000000000000000001000100#32 = .ok .mixcols ∧
      decode 0b00000000000000000000000001000101#32 = .ok .invmixcols ∧
      decode 0b00000000000000001100100001000110#32 = .ok (.addrk 200) := by decide

theorem test_decode_block_transforms :
    decode 0b00000000000000000000000001010000#32 = .ok .encrypt ∧
      decode 0b00000000000000000000000001010001#32 = .ok .decrypt := by decide

/-- R86: the three ways in which a word is illegal, RSV first. -/
theorem test_decode_illegal :
    decode 0x00010446#32 = .illegal .reservedNonzero ∧ decode 0x80000000#32 = .illegal .reservedNonzero ∧
      decode 0x00000131#32 = .illegal .immediateOnFormatN ∧ decode 0x00000016#32 = .illegal .unassignedOpcode ∧
      decode 0x000000ff#32 = .illegal .unassignedOpcode := by decide

/-- R88's three examples, and an immediate in decimal. -/
theorem test_assemble :
    assemble "GMUL" none = some 0x00000013#32 ∧ assemble "WBYTE" (some "2") = some 0x00000223#32 ∧
      assemble "ADDRK" (some "0x0a") = some 0x00000a46#32 ∧ assemble "ADDRK" (some "200") = some 0x0000c846#32 := by
  decide +kernel

/-- R88's assembly errors. -/
theorem test_assemble_errors :
    assemble "GMUL" (some "0") = none ∧ assemble "WBYTE" none = none ∧ assemble "ADDRK" (some "256") = none ∧
      assemble "ADD" none = none ∧ assemble "WBYTE" (some "0x") = none := by
  decide +kernel

/-- R89's `C` on the words of program P3, and R88's errors: no `C` writes an illegal word. -/
theorem test_host_command :
    opC "ADDRK" (some 9) = some [.write 0x00C 4 0x00000946] ∧ opC "SUBBYTES" none = some [.write 0x00C 4 0x00000040] ∧
      opC "ADDRK" (some 256) = none ∧ opC "ADDRK" (some 16777216) = none ∧ opC "NOP" (some 0) = none := by
  decide +kernel

/-- R89's `FOR`, with its number in an immediate: P3's key indices, an empty range, and an immediate past 255. -/
theorem test_host_loop :
    opFor 1 2 (fun r => opC "ADDRK" (some r)) = some [.write 0x00C 4 0x00000146, .write 0x00C 4 0x00000246] ∧
      opFor 2 1 (fun r => opC "ADDRK" (some r)) = some [] ∧ opFor 255 256 (fun r => opC "ADDRK" (some r)) = none := by
  decide +kernel

/-! ### The commands -/

/-- RESULT and STATUS after a step. -/
def resultAfter : StepResult → Option (Word × Word)
  | .next t => some (t.result, t.status.word)
  | .fault _ => none
  | .refused _ => none

/-- STATE and STATUS after a step. -/
def blockAfter : StepResult → Option (Block × Word)
  | .next t => some (t.state, t.status.word)
  | .fault _ => none
  | .refused _ => none

/-- Some words of SCHED, and STATUS, after a step. -/
def schedAfter (is : List Nat) : StepResult → Option (List Word × Word)
  | .next t => some (is.map (schedWord t.sched), t.status.word)
  | .fault _ => none
  | .refused _ => none

/-- STATUS and the level of `irq` after a step. -/
def statusAfter : StepResult → Option (Word × Bool)
  | .next t => some (t.status.word, t.irq)
  | .fault _ => none
  | .refused _ => none

/-- The value that the host's read returned. -/
def readAfter : StepResult → Option Word
  | .next t => t.reads.head?
  | .fault _ => none
  | .refused _ => none

/-- A device with operands; RESULT holds a value that no test expects. -/
def operands (a b : Word) : State := { State.reset with opa := a, opb := b, result := 0xaaaaaaaa }

/-- A device with a block in STATE and no schedule. -/
def loaded (b : Block) : State := { State.reset with state := b }

/-- The block P of 95_test_vectors.md L2-4. -/
def blockP : Block := ⟨0x00112233, 0x44556677, 0x8899aabb, 0xccddeeff⟩

/-- The key registers of 95_test_vectors.md L1-1 and L1-3, with a key length. -/
def keyed (n : BitVec 8) : State :=
  { State.reset with
    ctrl := ⟨n, false⟩
    key := #v[0x00010203, 0x04050607, 0x08090a0b, 0x0c0d0e0f, 0x10111213, 0x14151617, 0x18191a1b, 0x1c1d1e1f]
    state := blockP }

/-- The device after EXPAND of those keys. -/
def expanded (n : BitVec 8) : State :=
  match exec .expand (keyed n) with
  | .next t => t
  | .fault _ => State.reset
  | .refused _ => State.reset

/-- P5 step 14: NOP clears an earlier error and keeps the schedule. -/
theorem test_nop :
    resultAfter (exec .nop { operands 1 2 with
      status := ⟨true, false, true, .aes128, false, .invalidKeyLength⟩ }) = some (0xaaaaaaaa, 0x00000006) := by decide

theorem test_gadd_ignores_high_bits :
    resultAfter (exec .gadd (operands 0xdeadbe57 0x12345683)) = some (0x000000d4, 0x00000002) := by decide

theorem test_gdbl :
    resultAfter (exec .gdbl (operands 0x57 0)) = some (0xae, 0x00000002) ∧
      resultAfter (exec .gdbl (operands 0x80 0)) = some (0x1b, 0x00000002) := by decide

theorem test_gtpl :
    resultAfter (exec .gtpl (operands 0x57 0)) = some (0xf9, 0x00000002) ∧
      resultAfter (exec .gtpl (operands 0xff 0)) = some (0x1a, 0x00000002) := by decide

theorem test_gmul :
    resultAfter (exec .gmul (operands 0xffffff57 0x00000183)) = some (0xc1, 0x00000002) ∧
      resultAfter (exec .gmul (operands 0xff 0xff)) = some (0x13, 0x00000002) := by decide

theorem test_gmul_zero_operand :
    resultAfter (exec .gmul (operands 0xff 0x00)) = some (0, 0x00000002) ∧
      resultAfter (exec .gmul (operands 0x00 0xff)) = some (0, 0x00000002) := by decide

theorem test_mixcol :
    resultAfter (exec .mixcol (operands 0xdb135345 0)) = some (0x8e4da1bc, 0x00000002) ∧
      resultAfter (exec .mixcol (operands 0xd4d4d4d5 0)) = some (0xd5d5d7d6, 0x00000002) := by decide

theorem test_invmixcol :
    resultAfter (exec .invmixcol (operands 0xdb135345 0)) = some (0x32a41d55, 0x00000002) ∧
      resultAfter (exec .invmixcol (operands 0x2d26314c 0)) = some (0xa05050d6, 0x00000002) := by decide

theorem test_subb :
    resultAfter (exec .subb (operands 0xabcdef53 0)) = some (0xed, 0x00000002) ∧
      resultAfter (exec .subb (operands 0x10 0)) = some (0xca, 0x00000002) := by decide

theorem test_invsubb :
    resultAfter (exec .invsubb (operands 0x16 0)) = some (0xff, 0x00000002) ∧
      resultAfter (exec .invsubb (operands 0xed 0)) = some (0x53, 0x00000002) := by decide

theorem test_subw : resultAfter (exec .subw (operands 0x11223344 0)) = some (0x8293c31b, 0x00000002) := by decide

theorem test_wbyte :
    resultAfter (exec (.wbyte 0) (operands 0x11223344 0)) = some (0x11, 0x00000002) ∧
      resultAfter (exec (.wbyte 1) (operands 0x11223344 0)) = some (0x22, 0x00000002) ∧
      resultAfter (exec (.wbyte 3) (operands 0x11223344 0)) = some (0x44, 0x00000002) := by decide

theorem test_wbyte_out_of_range :
    resultAfter (exec (.wbyte 4) (operands 0x11223344 0)) = some (0xaaaaaaaa, 0x00000302) ∧
      resultAfter (exec (.wbyte 255) (operands 0x11223344 0)) = some (0xaaaaaaaa, 0x00000302) := by decide

theorem test_rotw : resultAfter (exec .rotw (operands 0x11223344 0)) = some (0x22334411, 0x00000002) := by decide

/-- The schedules of L2-3 by their words at the branches of the recurrence. -/
theorem test_expand :
    schedAfter [0, 4, 40, 43] (exec .expand (keyed 16)) =
        some ([0x00010203, 0xd6aa74fd, 0x13111d7f, 0x4d2b30c5], 0x00000006) ∧
      schedAfter [5, 6, 48, 51] (exec .expand (keyed 24)) =
        some ([0x14151617, 0x5846f2f9, 0xa4970a33, 0xe3a41d5d], 0x0000000e) ∧
      schedAfter [8, 12, 44, 59] (exec .expand (keyed 32)) =
        some ([0xa573c29f, 0x1651a8cd, 0xf01afafe, 0x6d68de36], 0x00000016) := by
  decide +kernel

/-- L2-3's corner cases: a bad length keeps the schedule, a shorter schedule keeps the words above it. -/
theorem test_expand_corners :
    schedAfter [4] (exec .expand { expanded 16 with ctrl := ⟨17, false⟩ }) = some ([0xd6aa74fd], 0x00000106) ∧
      schedAfter [43, 44, 59] (exec .expand { expanded 32 with ctrl := ⟨16, false⟩ }) =
        some ([0x4d2b30c5, 0xf01afafe, 0x6d68de36], 0x00000006) := by
  decide +kernel

theorem test_subbytes :
    blockAfter (exec .subbytes (loaded blockP)) =
      some (⟨0x638293c3, 0x1bfc33f5, 0xc4eeacea, 0x4bc12816⟩, 0x00000002) := by decide

theorem test_invsubbytes :
    blockAfter (exec .invsubbytes (loaded blockP)) =
      some (⟨0x52e39466, 0x86edd302, 0x97f962fe, 0x27c9997d⟩, 0x00000002) := by decide

theorem test_shiftrows :
    blockAfter (exec .shiftrows (loaded blockP)) =
      some (⟨0x0055aaff, 0x4499ee33, 0x88dd2277, 0xcc1166bb⟩, 0x00000002) := by decide

theorem test_invshiftrows :
    blockAfter (exec .invshiftrows (loaded blockP)) =
      some (⟨0x00ddaa77, 0x4411eebb, 0x885522ff, 0xcc996633⟩, 0x00000002) := by decide

theorem test_mixcols :
    blockAfter (exec .mixcols (loaded blockP)) =
      some (⟨0x22770055, 0x66334411, 0xaaff88dd, 0xeebbcc99⟩, 0x00000002) := by decide

theorem test_invmixcols :
    blockAfter (exec .invmixcols (loaded blockP)) =
      some (⟨0xaaff88dd, 0xeebbcc99, 0x22770055, 0x66334411⟩, 0x00000002) := by decide

theorem test_addrk :
    blockAfter (exec (.addrk 10) (expanded 16)) =
        some (⟨0x13003f4c, 0xa7c12c60, 0x7b9e0d30, 0x81f6de3a⟩, 0x00000006) ∧
      blockAfter (exec (.addrk 14) (expanded 32)) =
        some (⟨0x24ed5bff, 0xfb5c1f9e, 0xbf836887, 0xa1b530c9⟩, 0x00000016) := by
  decide +kernel

theorem test_addrk_errors :
    blockAfter (exec (.addrk 200) (keyed 16)) = some (blockP, 0x00000202) ∧
      blockAfter (exec (.addrk 11) (expanded 16)) = some (blockP, 0x00000306) ∧
      blockAfter (exec (.addrk 13) (expanded 24)) = some (blockP, 0x0000030e) := by
  decide +kernel

theorem test_encrypt :
    blockAfter (exec .encrypt (expanded 16)) = some (⟨0x69c4e0d8, 0x6a7b0430, 0xd8cdb780, 0x70b4c55a⟩, 0x00000006) := by
  decide +kernel

theorem test_encrypt_without_schedule : blockAfter (exec .encrypt (keyed 16)) = some (blockP, 0x00000202) := by decide

theorem test_decrypt :
    blockAfter (exec .decrypt { expanded 24 with state := ⟨0xdda97ca4, 0x864cdfe0, 0x6eaf70a0, 0xec0d7191⟩ }) =
      some (blockP, 0x0000000e) := by
  decide +kernel

theorem test_decrypt_without_schedule : blockAfter (exec .decrypt (keyed 32)) = some (blockP, 0x00000202) := by decide

/-! ### The window, the protocol and reset -/

/-- A device whose host is about to perform one operation. -/
def hostDoes (op : HostOp) (s : State) : State := { s with hostOps := [op] }

/-- A command in flight: BUSY = 1 and the word in PEND. -/
def inFlight (w : Word) (s : State) : State := s.issue w

/-- P7 step 3: the issue sets BUSY, and `irq` is low. -/
theorem test_issue :
    statusAfter (step (hostDoes (.write 0x00C 4 0x31) { keyed 16 with ctrl := ⟨16, true⟩ })) =
      some (0x00000001, false) := by decide

/-- P7 step 4: the completion raises `irq`. -/
theorem test_completion_raises_irq :
    statusAfter (step (inFlight 0x31 { keyed 16 with ctrl := ⟨16, true⟩ })) = some (0x00000006, true) := by
  decide +kernel

/-- P5 step 5: an illegal word is issued and fails at the engine's step. -/
theorem test_illegal_word_fails : statusAfter (step (inFlight 0xffffffff State.reset)) = some (0x00000402, false) := by
  decide

/-- P6, the second order: the write is dropped, and STATUS reads 0x25. -/
theorem test_dropped_write :
    statusAfter (step { inFlight 0x50 (expanded 16) with hostOps := [.write 0x040 4 0xffffffff], turns := [.host] }) =
      some (0x00000025, false) := by
  decide +kernel

/-- P6: `W STATUS, 0x22` clears DONE and OVR. -/
theorem test_acknowledge :
    statusAfter (step (hostDoes (.write 0x008 4 0x22)
      { State.reset with status := ⟨false, true, true, .aes128, true, .none⟩, ctrl := ⟨16, true⟩ })) =
      some (0x00000004, false) := by decide

theorem test_read_id : readAfter (step (hostDoes (.read 0x000 4) State.reset)) = some 0x41455301 := by decide

theorem test_read_reserved_while_busy :
    readAfter (step { inFlight 0x50 State.reset with hostOps := [.read 0x0FC 4], turns := [.host] }) = some 0 := by
  decide

theorem test_bad_width_and_alignment :
    step (hostDoes (.read 0x004 2) State.reset) = .fault .busAccess ∧
      step (hostDoes (.write 0x005 4 0) State.reset) = .fault .busAccess := by
  exact ⟨rfl, rfl⟩

/-- R230: reset abandons a command in flight. -/
theorem test_reset_abandons :
    statusAfter (step { inFlight 0x50 (expanded 16) with hostOps := [.assertReset], turns := [.host] }) =
      some (0x00000000, false) := by
  decide +kernel

/-- Each row's word is the next command that runs after reset. -/
theorem test_fetch_word : resultAfter (step (State.reset.withFetchWord 32 0x00000020)) = some (0x63, 0x00000002) := by
  decide

/-! ### Witnesses: states and operands that meet the hypotheses of each obligation that has any -/

/-- An idle device with values of its own in every register a command reads, and a host operation to come. -/
def idleHost (op : HostOp) : State :=
  { operands 0xdb135345 0x83 with
    ctrl := ⟨16, true⟩
    status := ⟨false, true, false, .aes128, true, .operandRange⟩
    hostOps := [op] }

/-- A device with ENCRYPT in flight, a schedule resident, and the host's turn next. -/
def busyHost (op : HostOp) : State :=
  { operands 1 2 with
    status := ⟨true, false, true, .aes128, false, .none⟩
    schedInit := 44
    pend := 0x50
    turns := [.host]
    hostOps := [op] }

/-- The host operation is next in an idle device. -/
theorem hostNext_idleHost (op : HostOp) : HostNext (idleHost op) op [] := ⟨rfl, rfl, nofun⟩

/-- The host operation is next in a device with a command in flight. -/
theorem hostNext_busyHost (op : HostOp) : HostNext (busyHost op) op [] := ⟨rfl, rfl, fun _ => rfl⟩

/-- A device with a schedule of the variant counted as resident. -/
def resident (v : Variant) : State :=
  { State.reset with status := ⟨false, false, true, v, false, .none⟩, schedInit := v.words }

/-- Every clause of the validity rule, at the two ends of each range of reserved opcodes. -/
theorem witness_InvalidWordsEndIllegal :
    (∃ w : Word, w.extractLsb' 16 16 = 0 ∧ (w.setWidth 8).toNat = 0x51 ∧ w.extractLsb' 8 8 = 0) ∧
      (∃ w : Word, w.extractLsb' 16 16 = 0 ∧ (w.setWidth 8).toNat = 0x46 ∧ w.extractLsb' 8 8 ≠ 0) ∧
      (0x00010000#32).extractLsb' 16 16 ≠ 0 ∧
      ((0x00000100#32).extractLsb' 8 8 ≠ 0 ∧ ((0x00000100#32).setWidth 8).toNat ∉ [0x23, 0x46]) ∧
      [0x01#32, 0x0F#32, 0x16#32, 0x1F#32, 0x24#32, 0x2F#32, 0x32#32, 0x3F#32, 0x47#32, 0x4F#32, 0x52#32, 0xFF#32].all
        (fun w => decide (decode w = .illegal .unassignedOpcode)) = true :=
  ⟨⟨0x00000051, by decide⟩, ⟨0x0000ff46, by decide⟩, by decide, by decide, by decide⟩

/-- The clauses that every statement of a command makes of its words: format N by IMM8 and by RSV, format I by RSV. -/
theorem witness_encoding_clauses :
    ((0x00000113#32).setWidth 8 = 0x13#8 ∧ 0x00000113#32 ≠ (0x13#8).setWidth 32) ∧
      ((0x80000013#32).setWidth 8 = 0x13#8 ∧ 0x80000013#32 ≠ (0x13#8).setWidth 32) ∧
      ((0x00010446#32).setWidth 8 = 0x46#8 ∧ (0x00010446#32).extractLsb' 16 16 ≠ 0) ∧ 255 ≤ 255 := by decide

theorem witness_AssemblerEmitsTheNamedCommand :
    assemble "ADDRK" (some "255") = some 0x0000ff46#32 ∧ Instr.nop.format = .n ∧ (Instr.wbyte 255).format = .i ∧
      (Instr.wbyte 255).wf = true ∧ 255 < 256 := by
  decide +kernel

/-- Clauses of the same statement on `C` and `FOR`: a command that is written, both formats, and both kinds of range. -/
theorem witness_AssemblerEmitsTheNamedCommand_host :
    opC "ADDRK" (some 255) = some [.write 0x00C 4 0x0000ff46] ∧ assembleInstr "ADDRK" none = none ∧ (Instr.addrk 0).wf = true ∧ Instr.nop.wf = true ∧
      (1 < 2 ∧ 9 ≤ 9) ∧ (255 ≤ 256 ∧ 256 ≤ 256 ∧ opC "WBYTE" (some 256) = none) := by
  decide +kernel

/-- The two ends of the range in both spellings, and the first numbers past it. -/
theorem witness_Names :
    Names "0" (Instr.wbyte 0).immediate ∧ Names "255" (Instr.addrk 255).immediate ∧
      Names "0x0a" (Instr.addrk 10).immediate ∧ Names "0xff" (Instr.wbyte 255).immediate ∧
      Names "256" 256 ∧ Names "0x100" 256 :=
  ⟨.inl ⟨[0], by decide +kernel⟩, .inl ⟨[2, 5, 5], by decide +kernel⟩, .inr ⟨[0, 10], by decide +kernel⟩,
    .inr ⟨[15, 15], by decide +kernel⟩, .inl ⟨[2, 5, 6], by decide +kernel⟩, .inr ⟨[1, 0, 0], by decide +kernel⟩⟩

theorem witness_EngineTurnRunsThePendingCommand :
    (∃ s : State, s.status.busy = true ∧ s.inReset = false ∧ s.turns.head? ≠ some .host ∧
        decode s.pend = .ok (.addrk 3)) ∧
      (∃ s : State, s.status.busy = true ∧ s.inReset = false ∧ s.turns.head? ≠ some .host ∧
        decode s.pend = .illegal .unassignedOpcode) ∧
      decodeTableWord 32 0x346 = some (.addrk 3) :=
  ⟨⟨inFlight 0x346 State.reset, by decide⟩, ⟨inFlight 0x47 State.reset, by decide⟩, by decide⟩

theorem witness_IssueLatchesTheCommand :
    HostNext (idleHost (.write 0x00C 4 0xffffffff)) (.write 0x00C 4 0xffffffff) [] ∧
      (idleHost (.write 0x00C 4 0xffffffff)).status.busy = false := ⟨hostNext_idleHost _, rfl⟩

theorem witness_FailingCommandChangesOnlyStatus :
    ∃ s t : State, engineStep s = .next t ∧ t.status.err ≠ .none :=
  ⟨pending 0x423 (operands 1 2), _, rfl, by decide⟩

theorem witness_MixcolMultipliesByTheMatrix :
    (idleHost .wait).opa = 0xdb#8 ++ 0x13#8 ++ 0x53#8 ++ 0x45#8 ∧
      (operands 0xc6c6c6c6 0).opa = 0xc6#8 ++ 0xc6#8 ++ 0xc6#8 ++ 0xc6#8 := by decide

theorem witness_InvmixcolMultipliesByTheInverseMatrix :
    (operands 0x8e4da1bc 0).opa = 0x8e#8 ++ 0x4d#8 ++ 0xa1#8 ++ 0xbc#8 ∧
      (operands 0xffffffff 0).opa = 0xff#8 ++ 0xff#8 ++ 0xff#8 ++ 0xff#8 := by decide

theorem witness_SubbIsTheAffineMapOfTheInverse :
    (operands 0x100 0).opa.setWidth 8 = 0x00#8 ∧ (operands 0x153 0).opa.setWidth 8 ≠ 0#8 ∧
      (operands 0x153 0).opa.setWidth 8 = 0x53#8 ∧ (operands 0xff 0).opa.setWidth 8 = 0xff#8 := by decide

theorem witness_InvsubbUndoesSubb :
    (operands 0x163 0).opa.setWidth 8 = 0x63#8 ∧ (operands 0x100 0).opa.setWidth 8 = 0x00#8 ∧
      (operands 0xff 0).opa.setWidth 8 = 0xff#8 := by decide

theorem witness_SubwSubstitutesEachByte :
    (operands 0x00010203 0).opa = 0x00#8 ++ 0x01#8 ++ 0x02#8 ++ 0x03#8 ∧ (operands 0 0).opa = 0x00000000#32 ∧
      (operands 0xffffffff 0).opa = 0xffffffff#32 := by decide

/-- The two ends of WBYTE's range, and the first index past it. -/
theorem witness_WbyteExtractsOneByte : 0 ≤ 3 ∧ 3 ≤ 3 ∧ 3 < 4 ∧ 3 < 255 := by decide

theorem witness_RoundConstantsAreDoublings : (1 ≤ 1 ∧ 1 ≤ 9) ∧ (1 ≤ 9 ∧ 9 ≤ 9) := by decide

/-- Each variant with the first and the last index of each clause, and the illegal lengths of L1-2g. -/
theorem witness_ExpandMakesTheKeySchedule :
    (keyed 16).ctrl.keyLen.toNat = 4 * Variant.aes128.nk ∧ (keyed 24).ctrl.keyLen.toNat = 4 * Variant.aes192.nk ∧
      (keyed 32).ctrl.keyLen.toNat = 4 * Variant.aes256.nk ∧ 7 < Variant.aes256.nk ∧
      (Variant.aes256.nk ≤ 8 ∧ 59 < 4 * (Variant.aes256.nr + 1)) ∧ (44 < 60 ∧ 4 * (Variant.aes128.nr + 1) ≤ 44) ∧
      (keyed 0).ctrl.keyLen.toNat ∉ [16, 24, 32] ∧ (keyed 33).ctrl.keyLen.toNat ∉ [16, 24, 32] := by decide

/-- Two states that agree on the key of AES-192 and on nothing else that EXPAND could read. -/
theorem witness_ScheduleDependsOnTheKeyAlone :
    ∃ s s' : State, s.ctrl.keyLen.toNat = 4 * Variant.aes192.nk ∧ s'.ctrl.keyLen = s.ctrl.keyLen ∧
      (∀ i (h : i < 8), i < Variant.aes192.nk → s'.key[i] = s.key[i]) ∧ s'.key[6] ≠ s.key[6] ∧ s'.opa ≠ s.opa :=
  ⟨keyed 24, { keyed 24 with key := (keyed 24).key.set 6 0, opa := 1 }, by decide⟩

theorem witness_BadKeyLengthIsHarmlessUntilExpand :
    (keyed 15).ctrl.keyLen.toNat ∉ [16, 24, 32] ∧
      (∃ s t : State, exec .expand s = .next t ∧ t.status.err = .invalidKeyLength) ∧
      ∃ s t : State, Instr.gadd ≠ .expand ∧ exec .gadd s = .next t :=
  ⟨by decide, ⟨keyed 15, _, rfl, by decide⟩, operands 1 2, _, by decide, rfl⟩

/-- Every row and column has the column it turns to. -/
theorem witness_ShiftrowsTurnsEachRow :
    ∀ r c : Fin 4, (∃ d : Fin 4, d.val = (c.val + r.val) % 4) ∧ ∃ d : Fin 4, d.val = (c.val + 4 - r.val) % 4 := by decide

/-- The two ends of the legal rounds of each variant, and the first round past them. -/
theorem witness_AddrkXorsTheRoundKey :
    ((resident .aes128).status.keyValid = true ∧ 0 ≤ (resident .aes128).status.kvar.nr) ∧
      (10 ≤ (resident .aes128).status.kvar.nr ∧ 12 ≤ (resident .aes192).status.kvar.nr ∧
        14 ≤ (resident .aes256).status.kvar.nr) ∧
      ((resident .aes128).status.kvar.nr < 11 ∧ (resident .aes192).status.kvar.nr < 13 ∧
        (resident .aes256).status.kvar.nr < 15) ∧
      State.reset.status.keyValid = false := by decide

theorem witness_EncryptIsItsRounds :
    (resident .aes192).status.keyValid = true ∧ State.reset.status.keyValid = false := by decide

theorem witness_DecryptIsItsRounds :
    (resident .aes256).status.keyValid = true ∧ State.reset.status.keyValid = false := by decide

theorem witness_DecryptUndoesEncrypt :
    (expanded 24).status.keyValid = true ∧ 0 ≤ (expanded 24).status.kvar.nr ∧ 12 ≤ (expanded 24).status.kvar.nr := by
  decide +kernel

theorem witness_KnownAnswerVectorsHold :
    (Variant.aes192, Block.mk 0xdda97ca4 0x864cdfe0 0x6eaf70a0 0xec0d7191) ∈
      [(Variant.aes128, Block.mk 0x69c4e0d8 0x6a7b0430 0xd8cdb780 0x70b4c55a),
        (Variant.aes192, Block.mk 0xdda97ca4 0x864cdfe0 0x6eaf70a0 0xec0d7191)] := by decide

/-- Two states that differ in every register that the block commands do not read. -/
theorem witness_CipherReadsOnlyStateAndResidentSchedule :
    ∃ s s' : State, s'.state = s.state ∧ s'.status.keyValid = s.status.keyValid ∧ s'.status.kvar = s.status.kvar ∧
      (∀ n, n < s.status.kvar.words → schedWord s'.sched n = schedWord s.sched n) ∧ s.status.keyValid = true ∧
      s'.opa ≠ s.opa ∧ s'.key ≠ s.key ∧ s'.sched ≠ s.sched :=
  ⟨resident .aes128, { resident .aes128 with
      opa := 1, key := (keyed 16).key, sched := (resident .aes128).sched.set 44 1 }, by decide +kernel⟩

theorem witness_CommandsKeepTheOperandRegisters : ∃ s t : State, exec (.wbyte 3) s = .next t :=
  ⟨operands 1 2, _, rfl⟩

theorem witness_OnlyScalarCommandsWriteResult :
    (∃ s t : State, exec .subbytes s = .next t ∧ scalar .subbytes = false) ∧
      (∃ s t : State, exec (.wbyte 4) s = .next t ∧ t.status.err ≠ .none) ∧
      (∃ s t : State, exec .gmul s = .next t ∧ byteValued .gmul = true ∧ t.status.err = .none) ∧
      ∃ s t : State, s.engineTurn = false ∧ step s = .next t ∧ t.result ≠ s.result :=
  ⟨⟨loaded blockP, _, rfl, rfl⟩, ⟨operands 1 2, _, rfl, by decide⟩, ⟨operands 1 2, _, rfl, rfl, rfl⟩,
    idleHost .assertReset, _, rfl, rfl, by decide⟩

theorem witness_OtherCommandsKeepStateAndSchedule :
    (∃ s t : State, exec .expand s = .next t ∧ writesState .expand = false) ∧
      ∃ s t : State, exec .subbytes s = .next t ∧ Instr.subbytes ≠ .expand :=
  ⟨⟨keyed 15, _, rfl, rfl⟩, loaded blockP, _, rfl, by decide⟩

/-- A step of the engine that makes a schedule resident, and a reset that ends it. -/
theorem witness_ScheduleChangesOnlyByExpandOrReset :
    (∃ s t : State, step s = .next t ∧ t.status.keyValid ≠ s.status.keyValid) ∧
      (∃ s t : State, s.status.keyValid = true ∧ step s = .next t ∧ t.status.keyValid ≠ s.status.keyValid) ∧
      State.reset.status.keyValid = false := by
  refine ⟨⟨inFlight 0x31 (keyed 16), _, rfl, by decide⟩, ⟨busyHost .assertReset, _, rfl, rfl, by decide⟩, rfl⟩

theorem witness_ErrorsHaveOnePriority :
    (∃ s : State, decode s.pend = .illegal .reservedNonzero ∧ s.pend = 0x00010446#32) ∧
      (keyed 17).ctrl.keyLen.toNat ∉ [16, 24, 32] ∧
      (∃ s : State, s.pend = 0x0000c846#32 ∧ s.status.keyValid = false) ∧
      ((resident .aes128).status.keyValid = true ∧ (resident .aes128).status.kvar.nr < 200) ∧ 3 < 4 :=
  ⟨⟨pending 0x00010446 State.reset, by decide⟩, by decide, ⟨pending 0x0000c846 State.reset, by decide⟩, by decide,
    by decide⟩

theorem witness_IrqFollowsDoneAndItsEnable :
    (HostNext (busyHost (.write 0x008 4 2)) (.write 0x008 4 2) [] ∧ (2#32).getLsbD 1 = true) ∧
      (HostNext (idleHost (.write 0x00C 4 0)) (.write 0x00C 4 0) [] ∧
        (idleHost (.write 0x00C 4 0)).status.busy = false) ∧
      HostNext (busyHost .assertReset) .assertReset [] ∧
      (HostNext (idleHost (.write 0x004 4 0x110)) (.write 0x004 4 0x110) [] ∧
        (idleHost (.write 0x004 4 0x110)).status.busy = false) :=
  ⟨⟨hostNext_busyHost _, by decide⟩, ⟨hostNext_idleHost _, rfl⟩, hostNext_busyHost _, hostNext_idleHost _, rfl⟩

/-- Any offset will do for the hypotheses, and each clause has its first and its last offset. -/
theorem witness_IdleWriteStoresOneRegister (off : Nat) (v : Word) :
    HostNext (idleHost (.write off 4 v)) (.write off 4 v) [] ∧ (idleHost (.write off 4 v)).status.busy = false ∧
      0x020 + 4 * 0 = 0x020 ∧ 0x020 + 4 * 7 = 0x03C ∧ 0x040 + 4 * (0 : Fin 4).val = 0x040 ∧
      0x040 + 4 * (3 : Fin 4).val = 0x04C :=
  ⟨hostNext_idleHost _, rfl, rfl, rfl, rfl, rfl⟩

/-- The first and the last offset of each range. -/
theorem witness_offset_ranges :
    (WritableOffset 0x004 ∧ WritableOffset 0x00C ∧ WritableOffset 0x014 ∧ WritableOffset 0x020 ∧ WritableOffset 0x03C ∧
        WritableOffset 0x040 ∧ WritableOffset 0x04C) ∧
      (ReadOnlyOffset 0x000 ∧ ReadOnlyOffset 0x018 ∧ ReadOnlyOffset 0x100 ∧ ReadOnlyOffset 0x1EC) ∧
      (ReservedOffset 0x01C ∧ ReservedOffset 0x050 ∧ ReservedOffset 0x0FC ∧ ReservedOffset 0x1F0 ∧
        ReservedOffset 0x1FC) := by
  refine ⟨⟨?_, ?_, ?_, ?_, ?_, ?_, ?_⟩, ⟨?_, ?_, ?_, ?_⟩, ?_, ?_, ?_, ?_, ?_⟩
  · simp [WritableOffset]
  · simp [WritableOffset]
  · simp [WritableOffset]
  · exact .inr (.inr (.inr (.inr (.inl ⟨0, by decide, rfl⟩))))
  · exact .inr (.inr (.inr (.inr (.inl ⟨7, by decide, rfl⟩))))
  · exact .inr (.inr (.inr (.inr (.inr ⟨0, by decide, rfl⟩))))
  · exact .inr (.inr (.inr (.inr (.inr ⟨3, by decide, rfl⟩))))
  · exact .inl rfl
  · exact .inr (.inl rfl)
  · exact .inr (.inr ⟨0, by decide, rfl⟩)
  · exact .inr (.inr ⟨59, by decide, rfl⟩)
  all_goals simp [ReservedOffset]

theorem witness_BusyWriteIsDropped (off : Nat) (v : Word) :
    HostNext (busyHost (.write off 4 v)) (.write off 4 v) [] ∧ (busyHost (.write off 4 v)).status.busy = true :=
  ⟨hostNext_busyHost _, rfl⟩

theorem witness_StatusWriteClearsDoneAndOvr :
    HostNext (busyHost (.write 0x008 4 0x22)) (.write 0x008 4 0x22) [] ∧
      HostNext (idleHost (.write 0x008 4 0x22)) (.write 0x008 4 0x22) [] := ⟨hostNext_busyHost _, hostNext_idleHost _⟩

/-- Any offset will do for the hypotheses, busy or idle, and a written word of SCHED is in range. -/
theorem witness_ReadsReturnTheRegisters (off : Nat) :
    HostNext (busyHost (.read off 4)) (.read off 4) [] ∧ HostNext (idleHost (.read off 4)) (.read off 4) [] ∧
      (idleHost (.read off 4)).status.busy = false ∧ (43 < 60 ∧ 43 < (resident .aes128).schedInit) ∧
      59 < (resident .aes256).schedInit :=
  ⟨hostNext_busyHost _, hostNext_idleHost _, rfl, by decide, by decide⟩

theorem witness_HostVariablesCarryValues :
    (HostNext (busyHost (.readKeep 1 0x1FC)) (.readKeep 1 0x1FC) [] ∧ 0x1FC < 0x200 ∧ 0x1FC % 4 = 0) ∧
      (HostNext { idleHost (.writeKept 1 0x010) with hostNames := [(1, 7)] } (.writeKept 1 0x010) [] ∧
        ([(1, 7)] : List (Nat × Word)).lookup 1 = some 7) ∧
      HostNext (idleHost (.writeKept 1 0x010)) (.writeKept 1 0x010) [] ∧
        (idleHost (.writeKept 1 0x010)).hostNames.lookup 1 = none :=
  ⟨⟨hostNext_busyHost _, by decide, by decide⟩, ⟨⟨rfl, rfl, nofun⟩, rfl⟩, hostNext_idleHost _, rfl⟩

theorem witness_UnspecifiedReadsDrawFreeValues (off : Nat) :
    (HostNext (busyHost (.read off 4)) (.read off 4) [] ∧ (busyHost (.read off 4)).status.busy = true) ∧
      HostNext (idleHost (.read 0x100 4)) (.read 0x100 4) [] ∧ (idleHost (.read 0x100 4)).schedInit ≤ 0 ∧
      (busyHost (.read 0x1B0 4)).schedInit ≤ 44 ∧ 0x1B0 = 0x100 + 4 * 44 :=
  ⟨⟨hostNext_busyHost _, rfl⟩, hostNext_idleHost _, by decide, by decide, rfl⟩

theorem witness_ReservedOffsetsReadZero :
    HostNext (busyHost (.read 0x1FC 4)) (.read 0x1FC 4) [] ∧ HostNext (idleHost (.write 0x01C 4 1)) (.write 0x01C 4 1) [] ∧
      ReservedOffset 0x1FC ∧ ReservedOffset 0x01C :=
  ⟨hostNext_busyHost _, hostNext_idleHost _, by simp [ReservedOffset], by simp [ReservedOffset]⟩

theorem witness_IllegalAccessFaults :
    (0x1FF < 0x200 ∧ 0x1FF % 4 ≠ 0) ∧ (0x000 < 0x200 ∧ 8 ≠ 4) ∧
      HostNext (busyHost (.read 0x1FF 4)) (.read 0x1FF 4) [] ∧ HostNext (idleHost (.write 0 8 1)) (.write 0 8 1) [] :=
  ⟨by decide, by decide, hostNext_busyHost _, hostNext_idleHost _⟩

theorem witness_WindowStandsAtBase :
    (0x000 < 0x200 ∧ 0x1FF < 0x200) ∧ Config.base + 0x200 ≤ Config.base + 0x200 ∧
      HostNext (idleHost (.read 0x200 4)) (.read 0x200 4) [] ∧
      HostNext (idleHost (.write 0x200 4 1)) (.write 0x200 4 1) [] :=
  ⟨by decide, Nat.le_refl _, hostNext_idleHost _, hostNext_idleHost _⟩

theorem witness_HostCannotDisturbACommand :
    ∃ s t : State, s.status.busy = true ∧ s.engineTurn = false ∧ (∀ rest, s.hostOps ≠ .assertReset :: rest) ∧
      step s = .next t :=
  ⟨busyHost (.write 0x040 4 7), _, rfl, rfl, nofun, rfl⟩

/-- A poll while a command is in flight, and a read of an unwritten word of SCHED while idle. -/
theorem witness_DutifulHostLosesNothing :
    (∃ s t : State, s.hostDutiful = true ∧ s.status.busy = true ∧ step s = .next t) ∧
      ∃ s t : State, s.hostDutiful = true ∧ step s = .next t ∧ t.draws ≠ s.draws :=
  ⟨⟨busyHost .wait, _, rfl, rfl, rfl⟩, idleHost (.read 0x1EC 4), _, rfl, rfl, by decide⟩

theorem witness_WriteRacesWithEncrypt :
    ∃ s : State, s.status.busy = true ∧ s.inReset = false ∧ s.status.keyValid = true ∧ decode s.pend = .ok .encrypt ∧
      s.hostOps = [.write 0x040 4 0xffffffff] ∧ s.turns = [.host] ∧ ({ s with turns := [] } : State).turns = [] :=
  ⟨busyHost (.write 0x040 4 0xffffffff), by decide⟩

theorem witness_AssertedResetClearsEveryRegister :
    HostNext (busyHost .assertReset) .assertReset [] ∧
      (∃ s : State, s.inReset = true ∧ s.hostOps = [.assertReset]) ∧
      (∃ s : State, s.inReset = true ∧ s.hostOps = [.wait]) ∧
      HostNext (busyHost .releaseReset) .releaseReset [] ∧
      (∃ s : State, s.inReset = true ∧ s.hostOps = [.releaseReset]) ∧
      HostNext { busyHost .assertReset with hostOps := [.assertReset, .releaseReset] } .assertReset [.releaseReset] :=
  ⟨hostNext_busyHost _, ⟨{ State.reset with inReset := true, hostOps := [.assertReset] }, rfl, rfl⟩,
    ⟨{ State.reset with inReset := true, hostOps := [.wait] }, rfl, rfl⟩, hostNext_busyHost _,
    ⟨{ State.reset with inReset := true, hostOps := [.releaseReset] }, rfl, rfl⟩, rfl, rfl, fun _ => rfl⟩

/-- A state with a command in flight, a resident schedule and an operation that changes the state. -/
theorem witness_StepKeepsTheInvariant : ∃ s t : State, s.Inv ∧ step s = .next t ∧ t ≠ s :=
  ⟨busyHost (.write 0x040 4 7), _, ⟨by decide, by decide, by decide, by decide, by decide, nofun, by decide⟩, rfl,
    by decide⟩

/-- A resident schedule that is an expanded key, and an EXPAND in flight that replaces it. -/
theorem witness_ResidentScheduleStaysExpanded :
    ∃ s t : State, s.ScheduleExpanded ∧ s.status.keyValid = true ∧ step s = .next t := by
  refine ⟨inFlight 0x31 { expanded 16 with ctrl := ⟨32, false⟩ }, _, ?_, by decide +kernel, rfl⟩
  have each : ∀ i < 44, 4 ≤ i → schedWord (expanded 16).sched i =
      scheduleWord 4 i (schedWord (expanded 16).sched (i - 4)) (schedWord (expanded 16).sched (i - 1)) := by
    decide +kernel
  intro _ i h1 h2
  exact each i h2 h1

theorem witness_WaitEnds :
    (HostNext (idleHost .wait) .wait [] ∧ (idleHost .wait).status.busy = false) ∧
      (HostNext (busyHost .wait) .wait [] ∧ (busyHost .wait).status.busy = true) ∧
      ∃ s : State, s.status.busy = true ∧ s.inReset = false ∧ s.hostOps = [.wait] ∧ s.turns = [.host] :=
  ⟨⟨hostNext_idleHost _, rfl⟩, ⟨hostNext_busyHost _, rfl⟩, busyHost .wait, by decide⟩

end Sys2Proof.Tests
end

section
/-! What the host's next operation does in a step of the machine, and the reads whose value is free
(spec/70_reset_and_hazards.md R231, R236, R240). -/

namespace Sys2Proof.Proofs

open Sys2Proof.Machine Sys2Proof.Statement

/-! ### The host's next operation -/

/-- The engine does not move when the host is next. -/
theorem engineTurn_of_hostNext {s : State} {op : HostOp} {rest : List HostOp} (h : HostNext s op rest) :
    s.engineTurn = false := by
  obtain ⟨-, -, hturn⟩ := h
  rw [Bool.eq_false_iff, ne_eq, engineTurn_iff]
  rintro ⟨hb, -, hne⟩
  exact hne (hturn hb)

/-- A step with the host next performs its operation on the state with the operation and the turn used up, unless the
operation is a poll to repeat (44_control.md R192, 30_encoding.md R89). -/
theorem step_of_hostNext {s : State} {op : HostOp} {rest : List HostOp} (h : HostNext s op rest)
    (hw : op ≠ .wait ∨ s.status.busy = false) : step s = hostAct op (used s rest) := by
  rw [step_host (engineTurn_of_hostNext h)]
  obtain ⟨hops, hreset, -⟩ := h
  exact hostStep_next (s := s.takeTurn) hops hreset hw

/-- A host read at the offset of a register is a read of that register (20_memory.md R62, R68). -/
theorem step_read_offset {s : State} {r : Reg} {rest : List HostOp} (h : HostNext s (.read r.offset 4) rest) :
    step s = .next ((used s rest).readReg r) := by
  rw [step_of_hostNext h (.inl nofun), hostAct, access_legal _ _ (offset_lt r) (offset_mod r), regAt_offset]

/-! ### Reads that return any value -/

/-- A read that returns any value takes the next free value and advances the counter (log entry 2). -/
theorem readReg_of_readsAnyValue {s : State} {r : Reg} (h : s.readsAnyValue r = true) :
    s.readReg r = { s with reads := Config.freeWord s.draws :: s.reads, draws := s.draws + 1 } := by
  simp [State.readReg, State.readValue, h]

theorem readsAnyValue_result (s : State) : s.readsAnyValue .result = s.status.busy := rfl

theorem readsAnyValue_state (s : State) (j : Fin 4) : s.readsAnyValue (.state j) = s.status.busy := rfl

theorem readsAnyValue_sched_iff (s : State) (i : Fin 60) :
    s.readsAnyValue (.sched i) = true ↔ s.status.busy = true ∨ s.schedInit ≤ i := by
  simp [State.readsAnyValue]

/-- Which reads return any value does not depend on the host's operations and turns. -/
@[simp] theorem readsAnyValue_used (s : State) (rest : List HostOp) (r : Reg) :
    (used s rest).readsAnyValue r = s.readsAnyValue r := by
  cases r <;> rfl

/-- A host read of a register whose value is free: the next free value, and nothing else changes. -/
theorem step_read_free {s : State} {r : Reg} {rest : List HostOp} (h : HostNext s (.read r.offset 4) rest)
    (hfree : s.readsAnyValue r = true) :
    step s = .next { used s rest with reads := Config.freeWord s.draws :: s.reads, draws := s.draws + 1 } := by
  rw [step_read_offset h, readReg_of_readsAnyValue (by rwa [readsAnyValue_used])]
  rfl

/-- The offsets at which R231 and R236 leave the value read free are those of registers that the model reads so. -/
theorem exists_reg_readsAnyValue {s : State} {off : Nat}
    (h : (s.status.busy = true ∧
        (off = 0x018 ∨ (∃ j, j < 4 ∧ off = 0x040 + 4 * j) ∨ ∃ i, i < 60 ∧ off = 0x100 + 4 * i)) ∨
      ∃ i, i < 60 ∧ off = 0x100 + 4 * i ∧ s.schedInit ≤ i) :
    ∃ r : Reg, off = r.offset ∧ s.readsAnyValue r = true := by
  rcases h with ⟨hb, rfl | ⟨j, hj, rfl⟩ | ⟨i, hi, rfl⟩⟩ | ⟨i, hi, rfl, hunwritten⟩
  · exact ⟨.result, rfl, (readsAnyValue_result s).trans hb⟩
  · exact ⟨.state ⟨j, hj⟩, rfl, (readsAnyValue_state s _).trans hb⟩
  · exact ⟨.sched ⟨i, hi⟩, rfl, (readsAnyValue_sched_iff ..).2 (.inl hb)⟩
  · exact ⟨.sched ⟨i, hi⟩, rfl, (readsAnyValue_sched_iff ..).2 (.inr hunwritten)⟩

/-- Settles O48: each such offset names a register, and a read of it draws. -/
theorem unspecifiedReadsDrawFreeValues : Obligations.UnspecifiedReadsDrawFreeValues := by
  intro s off rest hnext hread
  obtain ⟨r, rfl, hfree⟩ := exists_reg_readsAnyValue hread
  exact step_read_free hnext hfree

end Sys2Proof.Proofs
end

section
/-! What keeps the resident schedule and RESULT, and the invariant of a step (spec/10_state.md R28 to R41,
20_memory.md R77). -/

namespace Sys2Proof.Proofs

open Sys2Proof.Machine Sys2Proof.Statement

/-! ### What a step of the host does to the device -/

/-- The schedule, its two flags and the count of its written words are the same in both states. -/
def ScheduleKept (s t : State) : Prop :=
  t.status.keyValid = s.status.keyValid ∧ t.status.kvar = s.status.kvar ∧ t.sched = s.sched ∧
    t.schedInit = s.schedInit

theorem ScheduleKept.refl (s : State) : ScheduleKept s s := ⟨rfl, rfl, rfl, rfl⟩

/-- A step of the host does nothing, asserts or releases reset, or, out of reset, reads a register, perhaps under a name,
or writes one. -/
theorem hostStep_effects {s t : State} (h : hostStep s = .next t) :
    t = s ∨
      (∃ rest, s.hostOps = .assertReset :: rest ∧ t = ({ s with hostOps := rest } : State).applyReset) ∨
      (∃ rest, t = { s with hostOps := rest, inReset := false }) ∨
      (s.inReset = false ∧ ∃ ops r,
        t = ({ s with hostOps := ops } : State).readReg r ∨
          (∃ name, t = ({ s with hostOps := ops } : State).keep name r) ∨
          ∃ v, t = ({ s with hostOps := ops } : State).writeReg r v) := by
  rcases hostStep_cases h with ⟨-, rfl⟩ | ⟨_, -, hr, -, rfl⟩ | ⟨op, rest, hops, hr, -, hact⟩ | ⟨rest, hops, -, rfl⟩ |
    ⟨rest, -, -, rfl⟩
  · exact .inl rfl
  · exact .inr (.inr (.inr ⟨hr, s.hostOps, _, .inl rfl⟩))
  · rcases hostAct_cases hact with ⟨off, -, -, haccess⟩ | ⟨-, rfl⟩ | ⟨rfl, rfl⟩ | ⟨-, rfl⟩
    · refine .inr (.inr (.inr ⟨hr, rest, regAt off, ?_⟩))
      rcases haccess with ⟨-, rfl⟩ | ⟨v, -, rfl⟩ | ⟨name, -, rfl⟩ | ⟨-, v, -, -, rfl⟩
      · exact .inl rfl
      · exact .inr (.inr ⟨v, rfl⟩)
      · exact .inr (.inl ⟨name, rfl⟩)
      · exact .inr (.inr ⟨v, rfl⟩)
    · exact .inr (.inr (.inr ⟨hr, rest, _, .inl rfl⟩))
    · exact .inr (.inl ⟨rest, hops, rfl⟩)
    · exact .inr (.inr (.inl ⟨rest, rfl⟩))
  · exact .inr (.inl ⟨rest, hops, rfl⟩)
  · exact .inr (.inr (.inl ⟨rest, rfl⟩))

/-- What no host write changes: RESULT, the schedule, the reset line and the host's names (10_state.md R22). -/
theorem writeReg_frame (s : State) (r : Reg) (v : Word) :
    (s.writeReg r v).result = s.result ∧ ScheduleKept s (s.writeReg r v) ∧ (s.writeReg r v).inReset = s.inReset ∧
      (s.writeReg r v).hostNames = s.hostNames := by
  rcases writeReg_cases s r v with ⟨-, e⟩ | ⟨-, e⟩ | ⟨-, e⟩ |
    ⟨-, ⟨-, e⟩ | ⟨-, e⟩ | ⟨-, e⟩ | ⟨-, e⟩ | ⟨_, -, e⟩ | ⟨_, -, e⟩⟩ <;>
    rw [e] <;> exact ⟨rfl, ⟨rfl, rfl, rfl, rfl⟩, rfl, rfl⟩

/-- A host write leaves STATUS, acknowledges it, or sets it as a drop or an issue does. -/
theorem writeReg_status (s : State) (r : Reg) (v : Word) :
    (s.writeReg r v).status = s.status ∨ (s.writeReg r v).status = s.status.acked v ∨
      (s.writeReg r v).status = s.status.dropped ∨ (s.writeReg r v).status = s.status.issued := by
  rcases writeReg_cases s r v with ⟨-, e⟩ | ⟨-, e⟩ | ⟨-, e⟩ |
    ⟨-, ⟨-, e⟩ | ⟨-, e⟩ | ⟨-, e⟩ | ⟨-, e⟩ | ⟨_, -, e⟩ | ⟨_, -, e⟩⟩ <;> simp [e]

/-- A step of the host that does not assert reset keeps RESULT and the schedule (10_state.md R37, R40). -/
theorem hostStep_frame {s t : State} (h : hostStep s = .next t) :
    (∃ rest, s.hostOps = .assertReset :: rest) ∨ (t.result = s.result ∧ ScheduleKept s t) := by
  rcases hostStep_effects h with rfl | ⟨rest, hops, -⟩ | ⟨rest, rfl⟩ | ⟨-, ops, r, rfl | ⟨name, rfl⟩ | ⟨v, rfl⟩⟩
  · exact .inr ⟨rfl, .refl t⟩
  · exact .inl ⟨rest, hops⟩
  · exact .inr ⟨rfl, .refl s⟩
  · exact .inr ⟨rfl, .refl s⟩
  · exact .inr ⟨rfl, .refl s⟩
  · obtain ⟨hresult, hsched, -⟩ := writeReg_frame { s with hostOps := ops } r v
    exact .inr ⟨hresult, hsched⟩

/-! ### What a command does to the schedule -/

/-- A command keeps the schedule unless it is an EXPAND that succeeds (42_key_schedule.md R146). -/
theorem exec_schedule {i : Instr} {s t : State} (h : exec i s = .next t) :
    ScheduleKept s t ∨ (i = .expand ∧ t.status.err = .none ∧ t.status.keyValid = true) := by
  rcases exec_cases h with ⟨code, -, rfl⟩ | rfl | ⟨v, rfl⟩ | ⟨b, rfl⟩ | ⟨v, hi, -, rfl⟩
  · exact .inl (.refl s)
  · exact .inl (.refl s)
  · exact .inl (.refl s)
  · exact .inl (.refl s)
  · exact .inr ⟨hi, rfl, rfl⟩

/-- The engine's step keeps the schedule unless it is that of an EXPAND that succeeds. -/
theorem engineStep_schedule {s t : State} (h : engineStep s = .next t) :
    ScheduleKept s t ∨ (decode s.pend = .ok .expand ∧ t.status.err = .none ∧ t.status.keyValid = true) := by
  rcases engineStep_cases h with ⟨i, hd, hexec⟩ | ⟨r, -, rfl⟩
  · rcases exec_schedule hexec with hkept | ⟨rfl, hdone⟩
    · exact .inl hkept
    · exact .inr ⟨hd, hdone⟩
  · exact .inl (.refl s)

/-- Without a resident schedule the commands that need one end with NO_KEY_SCHEDULE and no other effect
(43_round_pipeline.md R175 to R177, 10_state.md R30). -/
theorem exec_without_schedule {s : State} (h : s.status.keyValid = false) (rk : Nat) :
    exec (.addrk rk) s = .next (failed s .noKeySchedule) ∧ exec .encrypt s = .next (failed s .noKeySchedule) ∧
      exec .decrypt s = .next (failed s .noKeySchedule) :=
  ⟨if_pos h, if_pos h, if_pos h⟩

/-- Settles O39: the engine's step changes the schedule only by EXPAND, and the host's only by asserting reset. -/
theorem scheduleChangesOnlyByExpandOrReset : Obligations.ScheduleChangesOnlyByExpandOrReset := by
  refine ⟨rfl, fun s t hstep hchanged => ?_, fun s rk hnone => exec_without_schedule hnone rk⟩
  rcases step_cases hstep with ⟨hturn, hengine⟩ | ⟨hturn, hhost⟩
  · rcases engineStep_schedule hengine with hkept | hexpand
    · exact absurd hkept hchanged
    · exact .inl ⟨hturn, hexpand⟩
  · rcases hostStep_frame hhost with hreset | ⟨-, hkept⟩
    · exact .inr ⟨hturn, hreset⟩
    · exact absurd hkept hchanged

/-! ### The invariant -/

/-- Binding a name keeps one entry under each name (30_encoding.md R89). -/
theorem bindName_nodup {names : List (Nat × Word)} (h : (names.map Prod.fst).Nodup) (name : Nat) (v : Word) :
    ((bindName names name v).map Prod.fst).Nodup := by
  rw [bindName, List.map_cons, List.nodup_cons]
  constructor
  · simp
  · exact h.sublist (List.filter_sublist.map _)

/-- STATUS of a command in flight: DONE = 0 and ERR = 0 (44_control.md R190). -/
def InFlight (u : Status) : Prop := u.busy = true → u.done = false ∧ u.err = .none

theorem inFlight_completed (u : Status) (code : ErrCode) : InFlight (u.completed code) := nofun

theorem writeReg_inFlight {s : State} (h : InFlight s.status) (r : Reg) (v : Word) :
    InFlight (s.writeReg r v).status := by
  rcases writeReg_status s r v with e | e | e | e <;> rw [e]
  · exact h
  · intro hb
    obtain ⟨hdone, herr⟩ := h hb
    exact ⟨by simp [hdone], herr⟩
  · exact h
  · exact fun _ => ⟨rfl, rfl⟩

/-- Out of reset the invariant carries over to a state with the same schedule, whatever the other registers hold. -/
theorem inv_of_scheduleKept {s t : State} (hs : s.Inv) (hsched : ScheduleKept s t) (hflight : InFlight t.status)
    (hreset : t.inReset = false) (hnames : (t.hostNames.map Prod.fst).Nodup) : t.Inv := by
  obtain ⟨hvalid, hvar, -, hinit⟩ := hsched
  exact {
    inFlight := hflight
    residentIff := by rw [hvalid, hinit]; exact hs.residentIff
    residentWords := by rw [hvalid, hvar, hinit]; exact hs.residentWords
    noVariant := by rw [hvalid, hvar]; exact hs.noVariant
    initBound := by rw [hinit]; exact hs.initBound
    heldInReset := by simp [hreset]
    namesDistinct := hnames }

/-- Asserting reset makes the invariant hold (70_reset_and_hazards.md R230). -/
theorem inv_applyReset {s : State} (hnames : (s.hostNames.map Prod.fst).Nodup) : s.applyReset.Inv where
  inFlight := nofun
  residentIff := by simp [State.reset]
  residentWords := nofun
  noVariant := fun _ => rfl
  initBound := Nat.zero_le 60
  heldInReset := fun _ => ⟨rfl, rfl, rfl, rfl, rfl, rfl, rfl, rfl, rfl⟩
  namesDistinct := hnames

/-- A successful EXPAND makes every word of the new variant's schedule count as written (42_key_schedule.md R146). -/
theorem inv_expand {s : State} (hs : s.Inv) (hreset : s.inReset = false) (v : Variant) :
    ((s.writeSchedule v (expandKey v s.key.toList)).complete .none).Inv := by
  have hlen : (expandKey v s.key.toList).length = v.words := expandKey_key_length s v
  have hpos : 0 < v.words := (nk_pos v).trans_le (nk_le_words v)
  exact {
    inFlight := inFlight_completed _ _
    residentIff := by simp [hlen, hpos]
    residentWords := by simp [hlen]
    noVariant := by simp
    initBound := by simpa [hlen] using ⟨hs.initBound, words_le v⟩
    heldInReset := by simp [hreset]
    namesDistinct := hs.namesDistinct }

/-- Out of reset a completion keeps the invariant, after a command that has left the schedule (44_control.md R193). -/
theorem inv_complete {s u : State} (hs : s.Inv) (hsched : ScheduleKept s u) (hreset : u.inReset = false)
    (hnames : u.hostNames = s.hostNames) (code : ErrCode) : (u.complete code).Inv :=
  inv_of_scheduleKept hs hsched (inFlight_completed _ code) hreset (by simpa [hnames] using hs.namesDistinct)

/-- A command keeps the invariant (44_control.md R192 to R194). -/
theorem inv_exec {i : Instr} {s t : State} (hs : s.Inv) (hreset : s.inReset = false) (h : exec i s = .next t) :
    t.Inv := by
  rcases exec_cases h with ⟨code, -, rfl⟩ | rfl | ⟨v, rfl⟩ | ⟨b, rfl⟩ | ⟨v, -, -, rfl⟩
  · exact inv_complete hs (.refl s) hreset rfl code
  · exact inv_complete hs (.refl s) hreset rfl .none
  · exact inv_complete (u := s.writeResult v) hs (.refl s) hreset rfl .none
  · exact inv_complete (u := s.writeBlock b) hs (.refl s) hreset rfl .none
  · exact inv_expand hs hreset v

theorem inv_engineStep {s t : State} (hs : s.Inv) (hreset : s.inReset = false) (h : engineStep s = .next t) :
    t.Inv := by
  rcases engineStep_cases h with ⟨i, -, hexec⟩ | ⟨r, -, rfl⟩
  · exact inv_exec hs hreset hexec
  · exact inv_complete hs (.refl s) hreset rfl .illegalCommand

/-- The choice of the next agent touches no register. -/
theorem inv_takeTurn {s : State} (hs : s.Inv) : s.takeTurn.Inv :=
  ⟨hs.inFlight, hs.residentIff, hs.residentWords, hs.noVariant, hs.initBound, hs.heldInReset, hs.namesDistinct⟩

theorem inv_hostStep {s t : State} (hs : s.Inv) (h : hostStep s = .next t) : t.Inv := by
  rcases hostStep_effects h with rfl | ⟨rest, -, rfl⟩ | ⟨rest, rfl⟩ |
    ⟨hreset, ops, r, rfl | ⟨name, rfl⟩ | ⟨v, rfl⟩⟩
  · exact hs
  · exact inv_applyReset hs.namesDistinct
  · exact inv_of_scheduleKept hs (.refl s) hs.inFlight rfl hs.namesDistinct
  · exact inv_of_scheduleKept hs (.refl s) hs.inFlight hreset hs.namesDistinct
  · exact inv_of_scheduleKept hs (.refl s) hs.inFlight hreset (bindName_nodup hs.namesDistinct name _)
  · obtain ⟨-, hsched, hr, hnames⟩ := writeReg_frame { s with hostOps := ops } r v
    refine inv_of_scheduleKept hs hsched ?_ (hr.trans hreset) ?_
    · exact writeReg_inFlight (s := { s with hostOps := ops }) hs.inFlight r v
    · rw [hnames]
      exact hs.namesDistinct

/-- Settles O58: the engine's step and the host's each keep the invariant. -/
theorem stepKeepsTheInvariant : Obligations.StepKeepsTheInvariant := by
  intro s t hs hstep
  rcases step_cases hstep with ⟨hturn, hengine⟩ | ⟨-, hhost⟩
  · obtain ⟨-, hreset, -⟩ := (engineTurn_iff s).1 hturn
    exact inv_engineStep (inv_takeTurn hs) hreset hengine
  · exact inv_hostStep (inv_takeTurn hs) hhost

end Sys2Proof.Proofs
end

section
/-! What commands leave alone, the words of CTRL and STATUS, and the host's accesses to one register
(spec/10_state.md R22 to R41). -/

namespace Sys2Proof.Proofs

open Sys2Proof.Machine Sys2Proof.Statement

/-! ### The ends of the commands of each kind -/

/-- A scalar command writes RESULT, with a zero-extended byte where its value is one, unless its operand is out of range
(10_state.md R36, R37). -/
theorem exec_scalar {i : Instr} (h : scalar i = true) (s : State) :
    (∃ v, (byteValued i = true → ∃ b, v = zext b) ∧ exec i s = finishResult v s) ∨
      exec i s = raiseError .operandRange s := by
  cases i with
  | gadd | gdbl | gtpl | gmul | subb | invsubb => exact .inl ⟨_, fun _ => ⟨_, rfl⟩, rfl⟩
  | mixcol | invmixcol | subw | rotw => exact .inl ⟨_, nofun, rfl⟩
  | wbyte index =>
    by_cases hi : index < 4
    · exact .inl ⟨_, fun _ => ⟨_, rfl⟩, dif_pos hi⟩
    · exact .inr (dif_neg hi)
  | _ => cases h

/-- A State command writes STATE, or reports an error (10_state.md R39). -/
theorem exec_writesState {i : Instr} (h : writesState i = true) (s : State) :
    (∃ b, exec i s = finishBlock b s) ∨ ∃ code, exec i s = raiseError code s := by
  cases i with
  | subbytes | invsubbytes | shiftrows | invshiftrows | mixcols | invmixcols => exact .inl ⟨_, rfl⟩
  | addrk round =>
    simp only [exec, execAddrk]
    split_ifs
    · exact .inr ⟨_, rfl⟩
    · exact .inr ⟨_, rfl⟩
    · exact .inl ⟨_, rfl⟩
  | encrypt =>
    simp only [exec, execEncrypt]
    split_ifs
    · exact .inr ⟨_, rfl⟩
    · exact .inl ⟨_, rfl⟩
  | decrypt =>
    simp only [exec, execDecrypt]
    split_ifs
    · exact .inr ⟨_, rfl⟩
    · exact .inl ⟨_, rfl⟩
  | _ => cases h

/-- The commands that are neither scalar nor on STATE are NOP and EXPAND (30_encoding.md R84). -/
theorem eq_nop_or_expand {i : Instr} (hscalar : scalar i = false) (hstate : writesState i = false) :
    i = .nop ∨ i = .expand := by
  cases i <;> simp_all [scalar, writesState]

theorem scalar_of_byteValued {i : Instr} (h : byteValued i = true) : scalar i = true := by
  cases i <;> simp_all [scalar, byteValued]

/-- EXPAND leaves RESULT and STATE (42_key_schedule.md R146). -/
theorem exec_expand_frame {s t : State} (h : exec .expand s = .next t) : t.result = s.result ∧ t.state = s.state := by
  simp only [exec, execExpand] at h
  split at h <;> cases h <;> exact ⟨rfl, rfl⟩

/-- A command that is not scalar leaves RESULT (10_state.md R37). -/
theorem exec_result_of_not_scalar {i : Instr} {s t : State} (h : exec i s = .next t) (hi : scalar i = false) :
    t.result = s.result := by
  cases hstate : writesState i with
  | true =>
    rcases exec_writesState hstate s with ⟨b, e⟩ | ⟨code, e⟩ <;> cases e.symm.trans h <;> rfl
  | false =>
    rcases eq_nop_or_expand hi hstate with rfl | rfl
    · cases h
      rfl
    · exact (exec_expand_frame h).1

/-- A command that is not a State command leaves STATE (10_state.md R39). -/
theorem exec_state_of_not_writesState {i : Instr} {s t : State} (h : exec i s = .next t)
    (hi : writesState i = false) : t.state = s.state := by
  cases hscalar : scalar i with
  | true =>
    rcases exec_scalar hscalar s with ⟨v, -, e⟩ | e <;> cases e.symm.trans h <;> rfl
  | false =>
    rcases eq_nop_or_expand hscalar hi with rfl | rfl
    · cases h
      rfl
    · exact (exec_expand_frame h).2

/-- A command that fails leaves RESULT (44_control.md R194). -/
theorem exec_result_of_err {i : Instr} {s t : State} (h : exec i s = .next t) (herr : t.status.err ≠ .none) :
    t.result = s.result := by
  rcases exec_cases h with ⟨code, -, rfl⟩ | rfl | ⟨v, rfl⟩ | ⟨b, rfl⟩ | ⟨v, -, -, rfl⟩
  · rfl
  all_goals exact absurd rfl herr

/-- A zero-extended byte has bits [31:8] 0 (00_scope.md R11). -/
theorem zext_ushiftRight_eight (b : Byte) : zext b >>> 8 = 0 := by
  unfold zext
  bv_omega

/-- A byte-valued command that succeeds leaves a byte in RESULT (10_state.md R37). -/
theorem exec_byteValued_result {i : Instr} {s t : State} (h : exec i s = .next t) (hi : byteValued i = true)
    (hok : t.status.err = .none) : t.result >>> 8 = 0 := by
  rcases exec_scalar (scalar_of_byteValued hi) s with ⟨v, hbyte, e⟩ | e
  · obtain ⟨b, rfl⟩ := hbyte hi
    cases e.symm.trans h
    exact zext_ushiftRight_eight b
  · cases e.symm.trans h
    cases hok

/-- Settles O36: none of the five ends of a command touches these fields. -/
theorem commandsKeepTheOperandRegisters : Obligations.CommandsKeepTheOperandRegisters := by
  intro i s t h
  rcases exec_cases h with ⟨code, -, rfl⟩ | rfl | ⟨v, rfl⟩ | ⟨b, rfl⟩ | ⟨v, -, -, rfl⟩ <;> simp

/-- Settles O37, from what each kind of command writes and from the frame of a host step. -/
theorem onlyScalarCommandsWriteResult : Obligations.OnlyScalarCommandsWriteResult := by
  refine ⟨fun i s t => exec_result_of_not_scalar, fun i s t => exec_result_of_err,
    fun i s t => exec_byteValued_result, fun s t hturn hstep hresult => ?_⟩
  rw [step_host hturn] at hstep
  exact (hostStep_frame hstep).resolve_right fun ⟨hkept, _⟩ => hresult hkept

/-- Settles O38, from what each kind of command writes. -/
theorem otherCommandsKeepStateAndSchedule : Obligations.OtherCommandsKeepStateAndSchedule := by
  intro i s t h
  refine ⟨exec_state_of_not_writesState h, fun hi => ?_⟩
  rcases exec_schedule h with ⟨hvalid, hvar, hsched, hinit⟩ | ⟨rfl, -⟩
  · exact ⟨hsched, hinit, hvalid, hvar⟩
  · exact absurd rfl hi

/-! ### The words of CTRL and STATUS -/

theorem getLsbD_flagBit (b : Bool) {n : Nat} (hn : n < 32) (i : Nat) :
    (flagBit b n).getLsbD i = (b && decide (i = n)) := by
  unfold flagBit
  cases b
  · simp
  · rw [if_pos rfl, ← BitVec.twoPow_eq, BitVec.getLsbD_twoPow]
    grind

/-- A bit of CTRL as it reads (10_state.md R24). -/
theorem getLsbD_ctrl_word (c : Ctrl) (i : Nat) :
    c.word.getLsbD i = (c.keyLen.getLsbD i || (c.irqEn && decide (i = 8))) := by
  have short : 32 ≤ i → c.keyLen.getLsbD i = false := fun h => BitVec.getLsbD_of_ge _ _ (by omega)
  rw [Ctrl.word, BitVec.getLsbD_or, BitVec.getLsbD_setWidth, getLsbD_flagBit _ (by decide)]
  grind

/-- A bit of STATUS as it reads (10_state.md R27). -/
theorem getLsbD_status_word (t : Status) (i : Nat) : t.word.getLsbD i =
    ((t.busy && decide (i = 0)) || (t.done && decide (i = 1)) || (t.keyValid && decide (i = 2)) ||
      (decide (3 ≤ i) && t.kvar.code.getLsbD (i - 3)) || (t.ovr && decide (i = 5)) ||
      (decide (8 ≤ i) && t.err.code.getLsbD (i - 8))) := by
  have kvar : 32 ≤ i → t.kvar.code.getLsbD (i - 3) = false := fun h => BitVec.getLsbD_of_ge _ _ (by omega)
  have err : 32 ≤ i → t.err.code.getLsbD (i - 8) = false := fun h => BitVec.getLsbD_of_ge _ _ (by omega)
  simp only [Status.word, BitVec.getLsbD_or, BitVec.getLsbD_shiftLeft, BitVec.getLsbD_setWidth,
    getLsbD_flagBit, Nat.reduceLT]
  grind

/-- KEYLEN in [7:0], IRQ_EN in [8], and 0 above (10_state.md R24). -/
theorem ctrl_word_layout (c : Ctrl) :
    c.word.extractLsb' 0 8 = c.keyLen ∧ c.word.getLsbD 8 = c.irqEn ∧ c.word >>> 9 = 0 := by
  refine ⟨BitVec.eq_of_getLsbD_eq fun i hi => ?_, ?_, BitVec.eq_of_getLsbD_eq fun i _ => ?_⟩
  · rw [BitVec.getLsbD_extractLsb', getLsbD_ctrl_word]
    grind
  · rw [getLsbD_ctrl_word]
    simp
  · rw [BitVec.getLsbD_ushiftRight, getLsbD_ctrl_word, BitVec.getLsbD_of_ge c.keyLen _ (by omega)]
    grind

/-- BUSY [0], DONE [1], KEY_VALID [2] and OVR [5] (10_state.md R27). -/
theorem status_word_flags (t : Status) : t.word.getLsbD 0 = t.busy ∧ t.word.getLsbD 1 = t.done ∧
    t.word.getLsbD 2 = t.keyValid ∧ t.word.getLsbD 5 = t.ovr := by
  refine ⟨?_, ?_, ?_, ?_⟩ <;> rw [getLsbD_status_word] <;> simp

/-- KVAR in [4:3] (10_state.md R31). -/
theorem status_word_kvar (t : Status) : t.word.extractLsb' 3 2 = t.kvar.code := by
  refine BitVec.eq_of_getLsbD_eq fun i hi => ?_
  rw [BitVec.getLsbD_extractLsb', getLsbD_status_word]
  grind

/-- ERR in [11:8] (60_exceptions.md R201). -/
theorem status_word_err (t : Status) : t.word.extractLsb' 8 4 = t.err.code := by
  refine BitVec.eq_of_getLsbD_eq fun i hi => ?_
  rw [BitVec.getLsbD_extractLsb', getLsbD_status_word, BitVec.getLsbD_of_ge t.kvar.code _ (by omega)]
  grind

/-- The reserved bits [7:6] and [31:12] read 0 (10_state.md R27). -/
theorem status_word_reserved (t : Status) : t.word.extractLsb' 6 2 = 0 ∧ t.word >>> 12 = 0 := by
  refine ⟨BitVec.eq_of_getLsbD_eq fun i hi => ?_, BitVec.eq_of_getLsbD_eq fun i _ => ?_⟩
  · rw [BitVec.getLsbD_extractLsb', getLsbD_status_word, BitVec.getLsbD_of_ge t.kvar.code _ (by omega)]
    grind
  · rw [BitVec.getLsbD_ushiftRight, getLsbD_status_word, BitVec.getLsbD_of_ge t.kvar.code _ (by omega),
      BitVec.getLsbD_of_ge t.err.code _ (by omega)]
    grind

/-- Settles O42: the bits of the two words, field by field. -/
theorem controlAndStatusLayout : Obligations.ControlAndStatusLayout := by
  refine ⟨ctrl_word_ofWord, ctrl_word_layout, fun t => ?_⟩
  obtain ⟨hbusy, hdone, hvalid, hovr⟩ := status_word_flags t
  obtain ⟨hlow, hhigh⟩ := status_word_reserved t
  exact ⟨hbusy, hdone, hvalid, status_word_kvar t, hovr, hlow, status_word_err t, hhigh⟩

/-! ### The host's accesses to one register -/

/-- A host write at the offset of a register is a write of that register (20_memory.md R62). -/
theorem step_write_offset {s : State} {r : Reg} {v : Word} {rest : List HostOp}
    (h : HostNext s (.write r.offset 4 v) rest) : step s = .next ((used s rest).writeReg r v) := by
  rw [step_of_hostNext h (.inl nofun), hostAct, access_legal _ _ (offset_lt r) (offset_mod r), regAt_offset]

/-- While idle a write to a read-write register is stored (10_state.md R22). -/
theorem store_of_idle {s : State} (h : s.status.busy = false) (stored : State) : s.store stored = stored := by
  simp [State.store, h]

/-- Settles O43: each offset names a register, and an idle device stores the write. -/
theorem idleWriteStoresOneRegister : Obligations.IdleWriteStoresOneRegister := by
  intro s off v rest hnext hidle
  have stored (u : State) : (used s rest).store u = u := store_of_idle (s := used s rest) hidle u
  refine ⟨?_, ?_, ?_, ?_, ?_⟩
  · rintro rfl
    exact (step_write_offset (r := .ctrl) hnext).trans (congrArg _ (stored _))
  · rintro rfl
    exact (step_write_offset (r := .opa) hnext).trans (congrArg _ (stored _))
  · rintro rfl
    exact (step_write_offset (r := .opb) hnext).trans (congrArg _ (stored _))
  · rintro k hk rfl
    exact ⟨s.key.set k v, (step_write_offset (r := .key ⟨k, hk⟩) hnext).trans (congrArg _ (stored _)),
      Vector.getElem_set_self .., fun n hn hne => Vector.getElem_set_ne _ _ hne.symm⟩
  · rintro j rfl
    exact ⟨s.state.setCol v j, (step_write_offset (r := .state j) hnext).trans (congrArg _ (stored _)),
      col_setCol_same .., fun c hne => col_setCol_other _ _ hne⟩

/-- Settles O45: a write of STATUS is performed busy or not, and clears by bits 1 and 5. -/
theorem statusWriteClearsDoneAndOvr : Obligations.StatusWriteClearsDoneAndOvr := by
  intro s v rest hnext
  have acked : s.status.acked v = { s.status with
      done := if v.getLsbD 1 then false else s.status.done
      ovr := if v.getLsbD 5 then false else s.status.ovr } := by
    unfold Status.acked
    cases v.getLsbD 1 <;> cases v.getLsbD 5 <;> simp
  rw [← acked]
  exact step_write_offset (r := .status) hnext

/-- A read that does not return any value returns what the register holds (20_memory.md R68). -/
theorem readReg_of_held {s : State} {r : Reg} (h : s.readsAnyValue r = false) :
    s.readReg r = { s with reads := s.held r :: s.reads } := by
  simp [State.readReg, State.readValue, h]

/-- What a register holds does not depend on the host's operations and turns. -/
theorem held_used (s : State) (rest : List HostOp) (r : Reg) : (used s rest).held r = s.held r := by
  cases r <;> rfl

/-- A host read of a register whose value is not free: the register's value, and nothing else changes. -/
theorem step_read_held {s : State} {r : Reg} {rest : List HostOp} (h : HostNext s (.read r.offset 4) rest)
    (hheld : s.readsAnyValue r = false) :
    step s = .next { used s rest with reads := s.held r :: s.reads } := by
  rw [step_read_offset h, readReg_of_held (by rwa [readsAnyValue_used]), held_used]
  rfl

/-- Settles O46: each offset names a register whose read returns what it holds. -/
theorem readsReturnTheRegisters : Obligations.ReadsReturnTheRegisters := by
  intro s off rest hnext
  refine ⟨?_, ?_, ?_, ?_, ?_, ?_, ?_, fun hidle => ⟨?_, ?_, ?_⟩⟩
  · rintro rfl
    exact step_read_held (r := .id) hnext rfl
  · rintro rfl
    exact step_read_held (r := .ctrl) hnext rfl
  · rintro rfl
    exact step_read_held (r := .status) hnext rfl
  · rintro rfl
    exact step_read_held (r := .cmd) hnext rfl
  · rintro rfl
    exact step_read_held (r := .opa) hnext rfl
  · rintro rfl
    exact step_read_held (r := .opb) hnext rfl
  · rintro k hk rfl
    exact step_read_held (r := .key ⟨k, hk⟩) hnext rfl
  · rintro rfl
    exact step_read_held (r := .result) hnext hidle
  · rintro j rfl
    exact step_read_held (r := .state j) hnext hidle
  · rintro i hi rfl hwritten
    exact step_read_held (r := .sched ⟨i, hi⟩) hnext (by simp [State.readsAnyValue, hidle, hwritten])

end Sys2Proof.Proofs
end

section
/-! The window and the accesses that are not to a register, the command in flight under the host's steps, and the
known-answer vectors (spec/20_memory.md R61 to R75, 95_test_vectors.md L1). -/

namespace Sys2Proof.Proofs

open Sys2Proof.Machine Sys2Proof.Statement

/-! ### A command in flight -/

/-- The command in flight, all that it will read, and RESULT are the same in both states. -/
def CommandKept (s t : State) : Prop :=
  t.status.busy = s.status.busy ∧ t.pend = s.pend ∧ t.ctrl = s.ctrl ∧ t.opa = s.opa ∧ t.opb = s.opb ∧
    t.key = s.key ∧ t.state = s.state ∧ t.sched = s.sched ∧ t.status.keyValid = s.status.keyValid ∧
    t.status.kvar = s.status.kvar ∧ t.status.err = s.status.err ∧ t.result = s.result

theorem CommandKept.refl (s : State) : CommandKept s s :=
  ⟨rfl, rfl, rfl, rfl, rfl, rfl, rfl, rfl, rfl, rfl, rfl, rfl⟩

/-- While a command is in flight a host write does nothing, acknowledges STATUS, or is dropped
(70_reset_and_hazards.md R235). -/
theorem writeReg_busy {s : State} (hb : s.status.busy = true) (r : Reg) (v : Word) :
    s.writeReg r v = s ∨ s.writeReg r v = s.ackStatus v ∨ s.writeReg r v = s.dropWrite := by
  rcases writeReg_cases s r v with ⟨-, e⟩ | ⟨-, e⟩ | ⟨-, e⟩ | ⟨hidle, -⟩
  · exact .inl e
  · exact .inr (.inl e)
  · exact .inr (.inr e)
  · rw [hb] at hidle
    cases hidle

/-- A host write during a command touches only DONE and OVR (10_state.md R32, R34). -/
theorem writeReg_commandKept {s : State} (hb : s.status.busy = true) (r : Reg) (v : Word) :
    CommandKept s (s.writeReg r v) := by
  rcases writeReg_busy hb r v with e | e | e <;> rw [e] <;> exact .refl s

/-- A step of the host during a command keeps it, unless it asserts reset (20_memory.md R71). -/
theorem hostStep_commandKept {s t : State} (hb : s.status.busy = true)
    (hreset : ∀ rest, s.hostOps ≠ .assertReset :: rest) (h : hostStep s = .next t) : CommandKept s t := by
  rcases hostStep_effects h with rfl | ⟨rest, hops, -⟩ | ⟨rest, rfl⟩ | ⟨-, ops, r, rfl | ⟨name, rfl⟩ | ⟨v, rfl⟩⟩
  · exact .refl t
  · exact absurd hops (hreset rest)
  · exact .refl s
  · exact .refl s
  · exact .refl s
  · exact writeReg_commandKept (s := { s with hostOps := ops }) hb r v

/-- Settles O52: the step is the host's, and it keeps the command. -/
theorem hostCannotDisturbACommand : Obligations.HostCannotDisturbACommand := by
  intro s t hb hturn hreset hstep
  rw [step_host hturn] at hstep
  obtain ⟨hbusy, hkept⟩ := hostStep_commandKept (s := s.takeTurn) hb hreset hstep
  exact ⟨hbusy.trans hb, hkept⟩

/-! ### Reserved offsets -/

/-- A legal host read acts on the register at its offset (20_memory.md R62). -/
theorem step_read_legal {s : State} {off : Nat} {rest : List HostOp} (h : HostNext s (.read off 4) rest)
    (hlt : off < 0x200) (halign : off % 4 = 0) : step s = .next ((used s rest).readReg (regAt off)) := by
  rw [step_of_hostNext h (.inl nofun), hostAct, access_legal _ _ hlt halign]

/-- A legal host write acts on the register at its offset (20_memory.md R62). -/
theorem step_write_legal {s : State} {off : Nat} {v : Word} {rest : List HostOp}
    (h : HostNext s (.write off 4 v) rest) (hlt : off < 0x200) (halign : off % 4 = 0) :
    step s = .next ((used s rest).writeReg (regAt off) v) := by
  rw [step_of_hostNext h (.inl nofun), hostAct, access_legal _ _ hlt halign]

/-- No register stands at a reserved offset (20_memory.md R64). -/
theorem regAt_of_reservedOffset {off : Nat} (h : ReservedOffset off) : regAt off = .reserved := by
  obtain ⟨-, hrange⟩ := h
  unfold regAt
  iterate 7 rw [if_neg (by omega)]
  iterate 3 rw [dif_neg (by omega)]

/-- Settles O49: the access is legal, and no register stands at its offset. -/
theorem reservedOffsetsReadZero : Obligations.ReservedOffsetsReadZero := by
  intro s off rest hreserved
  have hreg := regAt_of_reservedOffset hreserved
  obtain ⟨halign, hrange⟩ := hreserved
  have hlt : off < 0x200 := by omega
  refine ⟨fun hnext => ?_, fun v hnext => ?_⟩
  · rw [step_read_legal hnext hlt halign, hreg, readReg_of_held rfl]
    rfl
  · rw [step_write_legal hnext hlt halign, hreg]
    rfl

/-! ### Accesses that stop -/

/-- An access in the window of another width or alignment is a bus error (20_memory.md R63). -/
theorem access_illegal {off width : Nat} (act : Reg → State) (hlt : off < 0x200) (h : width ≠ 4 ∨ off % 4 ≠ 0) :
    access off width act = .fault .busAccess := by
  rw [access, if_neg (by omega), if_neg (by omega)]

/-- An access past the window is refused by name (20_memory.md R61; log entry 5). -/
theorem access_outside {off : Nat} (width : Nat) (act : Reg → State) (h : 0x200 ≤ off) :
    access off width act = .refused .outsideWindow :=
  if_pos h

/-- Settles O50: the host's next operation is an illegal access. -/
theorem illegalAccessFaults : Obligations.IllegalAccessFaults := by
  intro s off width v rest hlt hillegal
  refine ⟨fun hnext => ?_, fun hnext => ?_⟩
  · rw [step_of_hostNext hnext (.inl nofun), hostAct, access_illegal _ hlt hillegal]
  · rw [step_of_hostNext hnext (.inl nofun), hostAct, access_illegal _ hlt hillegal]

/-! ### The window -/

/-- "Offset `off` is bus address `BASE + off`" (20_memory.md R61). -/
theorem windowOffset_base_add {off : Nat} (h : off < 0x200) : windowOffset (Config.base + off) = some off := by
  rw [windowOffset, if_pos (by omega), Nat.add_sub_cancel_left]

/-- A bus address below or past the window is none of this device's (20_memory.md R61). -/
theorem windowOffset_outside {addr : Nat} (h : addr < Config.base ∨ Config.base + 0x200 ≤ addr) :
    windowOffset addr = none :=
  if_neg (by omega)

/-- Settles O51, from the offsets of the bus addresses and the stop of an access past the window. -/
theorem windowStandsAtBase : Obligations.WindowStandsAtBase := by
  refine ⟨Nat.mul_mod_right _ _, fun off width v hin => ?_, fun addr width v hout => ?_,
    fun s off width v rest hout => ⟨fun hnext => ?_, fun hnext => ?_⟩⟩
  · simp [busRead, busWrite, windowOffset_base_add hin]
  · simp [busRead, busWrite, windowOffset_outside hout]
  · rw [step_of_hostNext hnext (.inl nofun), hostAct, access_outside _ _ hout]
  · rw [step_of_hostNext hnext (.inl nofun), hostAct, access_outside _ _ hout]

/-! ### The known-answer vectors -/

/-- The device after a reset, with the key length of a variant and the key and the block of 95_test_vectors.md L1-1 and
L1-3 written. -/
def vectorState (v : Variant) : State :=
  { State.reset with
    ctrl := ⟨BitVec.ofNat 8 (4 * v.nk), false⟩
    key := #v[0x00010203, 0x04050607, 0x08090a0b, 0x0c0d0e0f, 0x10111213, 0x14151617, 0x18191a1b, 0x1c1d1e1f]
    state := ⟨0x00112233, 0x44556677, 0x8899aabb, 0xccddeeff⟩ }

theorem ofKeyLen_vectorState (v : Variant) : Variant.ofKeyLen (vectorState v).ctrl.keyLen = some v := by
  cases v <;> rfl

/-- EXPAND with the key length of a variant and then ENCRYPT: the block is encrypted under the schedule just made
(42_key_schedule.md R146, 43_round_pipeline.md R176). -/
theorem runCommands_expand_encrypt {s : State} {v : Variant} (hv : Variant.ofKeyLen s.ctrl.keyLen = some v) :
    ∃ t, runCommands [.expand, .encrypt] s = .next t ∧
      t.state = encryptBlock (s.writeSchedule v (expandKey v s.key.toList)).sched v.nr s.state ∧
      t.status.err = .none := by
  have hexpand : exec .expand s = .next ((s.writeSchedule v (expandKey v s.key.toList)).complete .none) :=
    execExpand_variant s v hv
  simp only [runCommands, hexpand]
  exact ⟨_, rfl, rfl, rfl⟩

/-- The ciphertexts of 95_test_vectors.md L1-1 and L1-3, computed. -/
theorem encryptBlock_vectorState : ∀ p ∈ [(Variant.aes128, Block.mk 0x69c4e0d8 0x6a7b0430 0xd8cdb780 0x70b4c55a),
      (Variant.aes192, Block.mk 0xdda97ca4 0x864cdfe0 0x6eaf70a0 0xec0d7191),
      (Variant.aes256, Block.mk 0x8ea2b7ca 0x516745bf 0xeafc4990 0x4b496089)],
    encryptBlock ((vectorState p.1).writeSchedule p.1 (expandKey p.1 (vectorState p.1).key.toList)).sched p.1.nr
      (vectorState p.1).state = p.2 := by
  decide +kernel

/-- Settles O34: the two commands encrypt the block, and the ciphertexts are the computed ones. -/
theorem knownAnswerVectorsHold : Obligations.KnownAnswerVectorsHold := by
  intro v c hvector
  obtain ⟨t, hrun, hstate, herr⟩ := runCommands_expand_encrypt (ofKeyLen_vectorState v)
  exact ⟨t, hrun, hstate.trans (encryptBlock_vectorState (v, c) hvector), herr⟩

end Sys2Proof.Proofs
end

section
/-! The decoder against the encoder, and the words that are illegal (spec/30_encoding.md R80 to R88). -/

namespace Sys2Proof.Proofs

open Sys2Proof.Machine Sys2Proof.Statement

/-! ### The fields of a command word -/

/-- A word with RSV 0 is put together from its other two fields (30_encoding.md R81). -/
theorem eq_of_rsvField_zero {w : Word} (h : rsvField w = 0) :
    (BitVec.ofNat 32 (immField w).toNat <<< 8) ||| (opField w).setWidth 32 = w := by
  have high (k : Nat) (h16 : 16 ≤ k) (hk : k < 32) : w.getLsbD k = false := by
    simpa [rsvField, Nat.add_sub_cancel' h16, show k - 16 < 16 by omega]
      using congrArg (BitVec.getLsbD · (k - 16)) h
  refine BitVec.eq_of_getLsbD_eq fun k hk => ?_
  simp only [immField, opField, BitVec.ofNat_toNat, BitVec.getLsbD_or, BitVec.getLsbD_shiftLeft,
    BitVec.getLsbD_setWidth, BitVec.getLsbD_extractLsb']
  grind

/-- An instruction has an encoding when its immediate fits in IMM8 (30_encoding.md R88). -/
theorem wf_iff_immediate_le (i : Instr) : i.wf = true ↔ i.immediate ≤ 255 := by
  cases i <;> simp [Instr.wf, Instr.immediate]

/-- Only WBYTE and ADDRK are format I (30_encoding.md R82). -/
theorem format_i_cases {i : Instr} (h : i.format = .i) : (∃ n, i = .wbyte n) ∨ ∃ n, i = .addrk n := by
  cases i with
  | wbyte n => exact .inl ⟨n, rfl⟩
  | addrk n => exact .inr ⟨n, rfl⟩
  | _ => cases h

/-- The format N commands are the listed ones (30_encoding.md R84). -/
theorem mem_plainCommands {i : Instr} (h : i.format = .n) : i ∈ plainCommands := by
  cases i with
  | wbyte n | addrk n => cases h
  | _ => decide

/-! ### The decoder -/

/-- The word has RSV 0 and carries the opcode and the immediate of the instruction (30_encoding.md R81). -/
def CarriesFields (w : Word) (i : Instr) : Prop :=
  rsvField w = 0 ∧ opField w = i.opcode ∧ (immField w).toNat = i.immediate

/-- A word with the opcode of a format N command carries the instruction that the decoder answers for it. -/
theorem carriesFields_of_formatN {w : Word} {i j : Instr} (hrsv : rsvField w = 0)
    (h : formatN w j = .ok i) (hj : j.immediate = 0) (hop : (opField w).toNat = j.opcode.toNat) : CarriesFields w i := by
  unfold formatN at h
  split at h
  · next himm =>
    cases h
    exact ⟨hrsv, BitVec.eq_of_toNat_eq hop, by rw [himm, hj]; rfl⟩
  · cases h

/-- What the decoder reads from a word is in the fields of the word (30_encoding.md R86). -/
theorem carriesFields_of_decode {w : Word} {i : Instr} (h : decode w = .ok i) : CarriesFields w i := by
  unfold decode at h
  split at h
  · cases h
  next hrsv =>
  have hrsv : rsvField w = 0 := by simpa using hrsv
  split at h
  -- WBYTE and ADDRK, which take any immediate; no assigned opcode; the format N commands
  case h_11 hop | h_20 hop =>
    cases h
    exact ⟨hrsv, BitVec.eq_of_toNat_eq hop, rfl⟩
  case h_23 => cases h
  all_goals next hop => exact carriesFields_of_formatN hrsv h rfl hop

/-- The word that carries an instruction's fields is its encoding (30_encoding.md R88). -/
theorem encode_of_carriesFields {w : Word} {i : Instr} (h : CarriesFields w i) : i.wf = true ∧ encode i = w := by
  obtain ⟨hrsv, hop, himm⟩ := h
  constructor
  · rw [wf_iff_immediate_le, ← himm]
    have := (immField w).isLt
    omega
  · rw [encode, ← hop, ← himm, eq_of_rsvField_zero hrsv]

open Laws.RoundTrip in
/-- The decoder reads every well-formed instruction back from its encoding (30_encoding.md R84, R88). -/
theorem decode_encode : ∀ {i : Instr}, i.wf = true → decode (encode i) = .ok i
  | .nop => nop | .gadd => gadd | .gdbl => gdbl | .gtpl => gtpl | .gmul => gmul | .mixcol => mixcol
  | .invmixcol => invmixcol | .subb => subb | .invsubb => invsubb | .subw => subw | .wbyte n => wbyte n
  | .rotw => rotw | .expand => expand | .subbytes => subbytes | .invsubbytes => invsubbytes
  | .shiftrows => shiftrows | .invshiftrows => invshiftrows | .mixcols => mixcols | .invmixcols => invmixcols
  | .addrk n => addrk n | .encrypt => encrypt | .decrypt => decrypt

/-- The decoder answers an instruction exactly for the word that carries it. -/
theorem decode_eq_ok_iff (w : Word) (i : Instr) : decode w = .ok i ↔ CarriesFields w i := by
  refine ⟨carriesFields_of_decode, fun h => ?_⟩
  obtain ⟨hwf, rfl⟩ := encode_of_carriesFields h
  exact decode_encode hwf

/-- Settles O2: a word that decodes carries the instruction's fields, and so is its encoding. -/
theorem decodeAndEncodeInverse : Obligations.DecodeAndEncodeInverse := by
  intro w i
  constructor
  · exact fun h => encode_of_carriesFields (carriesFields_of_decode h)
  · rintro ⟨hwf, rfl⟩
    exact decode_encode hwf

/-- Settles O1: the decoder on six fixed words. -/
theorem writtenOutWordsDecode : Obligations.WrittenOutWordsDecode := by
  unfold Obligations.WrittenOutWordsDecode
  decide

/-! ### Illegal words -/

/-- A word that carries no instruction's fields ends with ILLEGAL_COMMAND (60_exceptions.md R205). -/
theorem endsIllegal_of_not_carries {w : Word} (h : ∀ i, ¬CarriesFields w i) : EndsIllegal w := by
  intro s
  cases hd : decode w with
  | ok i => exact absurd (carriesFields_of_decode hd) (h i)
  | illegal r =>
    have hpend : decode (pending w s).pend = .illegal r := hd
    rw [engineStep, hpend]
    rfl

/-- The opcodes of the opcode map, as numbers (30_encoding.md R84). -/
def assignedOpcodes : List Nat :=
  [0x00, 0x10, 0x11, 0x12, 0x13, 0x14, 0x15, 0x20, 0x21, 0x22, 0x23, 0x30, 0x31, 0x40, 0x41, 0x42, 0x43, 0x44, 0x45,
    0x46, 0x50, 0x51]

/-- The opcode of every instruction is assigned. -/
theorem opcode_mem_assignedOpcodes (i : Instr) : i.opcode.toNat ∈ assignedOpcodes := by
  cases i <;> simp [Instr.opcode, assignedOpcodes]

/-- A format I opcode is that of an instruction with any immediate, another assigned opcode that of one with none
(30_encoding.md R82). -/
theorem exists_instr_of_mem_assignedOpcodes {op n : Nat} (hop : op ∈ assignedOpcodes)
    (hn : op ∈ [0x23, 0x46] ∨ n = 0) : ∃ i : Instr, i.opcode.toNat = op ∧ i.immediate = n := by
  have plain : ∀ op ∈ assignedOpcodes, op ∉ [0x23, 0x46] →
      ∃ i ∈ plainCommands, i.opcode.toNat = op ∧ i.immediate = 0 := by decide
  by_cases h : op ∈ [0x23, 0x46]
  · rcases List.mem_pair.1 h with rfl | rfl
    · exact ⟨.wbyte n, rfl, rfl⟩
    · exact ⟨.addrk n, rfl, rfl⟩
  · obtain rfl : n = 0 := hn.resolve_left h
    obtain ⟨i, -, hi⟩ := plain op hop h
    exact ⟨i, hi⟩

/-- Only the format I opcodes carry an immediate (30_encoding.md R82). -/
theorem opcode_of_immediate_ne_zero {i : Instr} (h : i.immediate ≠ 0) : i.opcode.toNat ∈ [0x23, 0x46] := by
  cases i with
  | wbyte n | addrk n => simp [Instr.opcode]
  | _ => exact absurd rfl h

/-- OP is the low byte of the word (30_encoding.md R81). -/
theorem opField_eq_setWidth (w : Word) : opField w = w.setWidth 8 := BitVec.setWidth_eq_extractLsb' (by decide) |>.symm

/-- Settles O3: the fields of a valid word are an instruction's, and those of each of the others are not. -/
theorem invalidWordsEndIllegal : Obligations.InvalidWordsEndIllegal := by
  refine ⟨fun w hrsv hop himm => ?_, fun w hrsv => ?_, fun w himm hop => ?_, fun w hreserved => ?_⟩
  · obtain ⟨i, hi, hn⟩ := exists_instr_of_mem_assignedOpcodes (n := (immField w).toNat) hop
      (himm.imp_right fun h => congrArg BitVec.toNat h)
    refine ⟨i, (decode_eq_ok_iff w i).2 ⟨hrsv, BitVec.eq_of_toNat_eq ?_, hn.symm⟩⟩
    rw [opField_eq_setWidth, hi]
  · exact endsIllegal_of_not_carries fun i ⟨h, _, _⟩ => hrsv h
  · refine endsIllegal_of_not_carries fun i ⟨_, hi, hn⟩ => hop ?_
    rw [← opField_eq_setWidth, hi]
    exact opcode_of_immediate_ne_zero fun h0 => himm (BitVec.eq_of_toNat_eq (hn.trans h0))
  · refine endsIllegal_of_not_carries fun i ⟨_, hi, _⟩ => ?_
    have hassigned := opcode_mem_assignedOpcodes i
    rw [← hi, opField_eq_setWidth] at hassigned
    simp only [assignedOpcodes, List.mem_cons, List.not_mem_nil, or_false] at hassigned
    omega

end Sys2Proof.Proofs
end

section
/-! What the assembler emits and refuses (spec/30_encoding.md R88, R89). -/

namespace Sys2Proof.Proofs

open Sys2Proof.Machine Sys2Proof.Statement

/-! ### The assembler -/

/-- A format N mnemonic alone names its command (30_encoding.md R88). -/
theorem assembleInstr_formatN {i : Instr} (h : i.format = .n) : assembleInstr (mnemonic i) none = some i := by
  have all : ∀ i ∈ plainCommands, assembleInstr (mnemonic i) none = some i := by decide +kernel
  exact all i (mem_plainCommands h)

/-- A format I mnemonic with an immediate up to 255 names the command with that immediate (30_encoding.md R88). -/
theorem assembleInstr_formatI {i : Instr} (h : i.format = .i) (hwf : i.wf = true) :
    assembleInstr (mnemonic i) (some i.immediate) = some i := by
  have hle : ¬255 < i.immediate := Nat.not_lt.2 ((wf_iff_immediate_le i).1 hwf)
  rw [assembleInstr, if_neg hle]
  rcases format_i_cases h with ⟨n, rfl⟩ | ⟨n, rfl⟩
  · rfl
  · rfl

/-- An immediate on a format N mnemonic is an assembly error (30_encoding.md R88). -/
theorem assembleInstr_immediate_formatN {i : Instr} (h : i.format = .n) (n : Nat) :
    assembleInstr (mnemonic i) (some n) = none := by
  have all : ∀ i ∈ plainCommands, (mnemonic i == "WBYTE") = false ∧ (mnemonic i == "ADDRK") = false := by
    decide +kernel
  obtain ⟨hw, ha⟩ := all i (mem_plainCommands h)
  simp [assembleInstr, hw, ha]

/-- A missing immediate on a format I mnemonic is an assembly error (30_encoding.md R88). -/
theorem assembleInstr_missing_immediate {i : Instr} (h : i.format = .i) : assembleInstr (mnemonic i) none = none := by
  rcases format_i_cases h with ⟨n, rfl⟩ | ⟨n, rfl⟩
  · exact (by decide +kernel : assembleInstr "WBYTE" none = none)
  · exact (by decide +kernel : assembleInstr "ADDRK" none = none)

/-- An immediate above 255 is an assembly error (30_encoding.md R88). -/
theorem assembleInstr_immediate_too_large (m : String) {n : Nat} (h : 255 < n) : assembleInstr m (some n) = none :=
  if_pos h

/-- What a mnemonic and an immediate name decodes from its encoding. -/
theorem decode_of_assembleInstr {m : String} {imm : Option Nat} {i : Instr} (h : assembleInstr m imm = some i) :
    decode (encode i) = .ok i ∧ mnemonic i = m := by
  obtain ⟨hwf, hm⟩ := assembleInstr_eq_some h
  exact ⟨decode_encode hwf, hm⟩

/-! ### Texts -/

/-- A text that names a number reads as that number (30_encoding.md R88; log entry 14). -/
theorem parseImmediate_of_names {text : String} {n : Nat} (h : Names text n) :
    parseImmediate text.toList = some n := by
  rcases h with ⟨digits, hne, hlt, rfl, rfl⟩ | ⟨digits, hne, hlt, rfl, rfl⟩
  · rw [decimalText, String.toList_ofList, parseImmediate_decimal digits hne hlt]
    rfl
  · rw [hexText, String.toList_ofList, parseImmediate_hex digits hne hlt]
    rfl

theorem assemble_none (m : String) : assemble m none = (assembleInstr m none).map encode := rfl

/-- A text is assembled as the number it reads as, and one that reads as none is an assembly error. -/
theorem assemble_some (m text : String) : assemble m (some text) =
    (parseImmediate text.toList).bind fun n => (assembleInstr m (some n)).map encode := by
  cases h : parseImmediate text.toList with
  | none => simp [assemble, h]
  | some n => simp [assemble, h]

theorem assemble_of_names (m : String) {text : String} {n : Nat} (h : Names text n) :
    assemble m (some text) = (assembleInstr m (some n)).map encode := by
  rw [assemble_some, parseImmediate_of_names h]
  rfl

/-- Whatever the assembler emits is the encoding of what the mnemonic and some immediate name. -/
theorem assemble_eq_some {m : String} {operand : Option String} {w : Word} (h : assemble m operand = some w) :
    ∃ imm i, assembleInstr m imm = some i ∧ encode i = w := by
  cases operand with
  | none => exact ⟨none, Option.map_eq_some_iff.1 h⟩
  | some text =>
    rw [assemble_some] at h
    obtain ⟨n, -, hn⟩ := Option.bind_eq_some_iff.1 h
    exact ⟨some n, Option.map_eq_some_iff.1 hn⟩

/-- No text stands after a format N mnemonic (30_encoding.md R88). -/
theorem assemble_text_formatN {i : Instr} (h : i.format = .n) (text : String) :
    assemble (mnemonic i) (some text) = none := by
  rw [assemble_some]
  cases parseImmediate text.toList with
  | none => rfl
  | some n =>
    rw [Option.bind_some, assembleInstr_immediate_formatN h]
    rfl

/-! ### `C` and `FOR` -/

/-- The immediate that a `C` of the instruction is written with (30_encoding.md R89). -/
theorem assembleInstr_of_wf {i : Instr} (hwf : i.wf = true) :
    assembleInstr (mnemonic i) (if i.format = .i then some i.immediate else none) = some i := by
  cases h : i.format with
  | i => exact assembleInstr_formatI h hwf
  | n => exact assembleInstr_formatN h

/-- A `C` of what does not assemble is an assembly error (30_encoding.md R88). -/
theorem opC_eq_none {m : String} {imm : Option Nat} (h : assembleInstr m imm = none) : opC m imm = none := by
  rw [opC, h, Option.map_none]

/-- A `C` is one write to CMD of the encoding (30_encoding.md R89). -/
theorem opC_of_assembleInstr {m : String} {imm : Option Nat} {i : Instr} (h : assembleInstr m imm = some i) :
    opC m imm = some [.write 0x00C 4 (encode i)] := by
  rw [opC, h]
  rfl

/-- A `FOR` whose operations all assemble writes them out for each number in order (30_encoding.md R89). -/
theorem opFor_some (a b : Nat) (f : Nat → List HostOp) :
    opFor a b (fun r => some (f r)) = some ((List.range' a (b + 1 - a)).flatMap f) :=
  joinOps_map_some f _

/-- A `FOR` from `a` past `b` is nothing (30_encoding.md R89). -/
theorem opFor_empty {a b : Nat} (h : b < a) (f : Nat → List HostOp) : opFor a b (fun r => some (f r)) = some [] := by
  rw [opFor_some, Nat.sub_eq_zero_of_le h]
  rfl

/-- A `FOR` begins with the operations for its first number (30_encoding.md R89). -/
theorem opFor_step {a b : Nat} (h : a ≤ b) (f : Nat → List HostOp) :
    opFor a b (fun r => some (f r)) = (opFor (a + 1) b fun r => some (f r)).map fun rest => f a ++ rest := by
  have hlen : b + 1 - a = (b + 1 - (a + 1)) + 1 := by omega
  rw [opFor_some, opFor_some, hlen, List.range'_succ, List.flatMap_cons, Option.map_some]

/-- A `FOR` with an assembly error for one of its numbers is an assembly error (30_encoding.md R88; log entry 14). -/
theorem opFor_eq_none {a b r : Nat} {ops : Nat → Option (List HostOp)} (ha : a ≤ r) (hb : r ≤ b) (h : ops r = none) :
    opFor a b ops = none :=
  joinOps_eq_none (List.mem_map.2 ⟨r, List.mem_range'_1.2 ⟨ha, by omega⟩, h⟩)

/-- Settles O4, clause by clause from the laws of the assembler, of texts, and of `C` and `FOR`. -/
theorem assemblerEmitsTheNamedCommand : Obligations.AssemblerEmitsTheNamedCommand := by
  refine ⟨fun m operand w h => ?_, fun i h => ?_, fun i => assembleInstr_formatI,
    fun i n h => assembleInstr_immediate_formatN h n, fun i => assembleInstr_missing_immediate,
    fun m n => assembleInstr_immediate_too_large m, fun i text h hwf hnames => ?_,
    fun i text h => assemble_text_formatN h text, fun i h => ?_, fun m text n hnames h => ?_,
    fun m imm ops h => ?_, fun i hwf => opC_of_assembleInstr (assembleInstr_of_wf hwf),
    fun m n h => opC_eq_none (assembleInstr_immediate_too_large m h), fun m imm => opC_eq_none,
    fun a b f => ⟨fun h => opFor_empty h f, fun h => opFor_step h f⟩, fun a b r ops => opFor_eq_none⟩
  · obtain ⟨imm, i, hi, rfl⟩ := assemble_eq_some h
    exact ⟨i, decode_of_assembleInstr hi⟩
  · rw [assemble_none, assembleInstr_formatN h, Option.map_some]
  · rw [assemble_of_names _ hnames, assembleInstr_formatI h hwf, Option.map_some]
  · rw [assemble_none, assembleInstr_missing_immediate h, Option.map_none]
  · rw [assemble_of_names m hnames, assembleInstr_immediate_too_large m h, Option.map_none]
  · obtain ⟨i, hi, -, -, rfl⟩ := opC_eq_some h
    exact ⟨encode i, i, rfl, decode_of_assembleInstr hi⟩

end Sys2Proof.Proofs
end

section
/-! The host's variables and WAIT (spec/30_encoding.md R89). -/

namespace Sys2Proof.Proofs

open Sys2Proof.Machine Sys2Proof.Statement

/-! ### The host's variables -/

/-- The name bound last has its value (30_encoding.md R89). -/
theorem lookup_bindName_same (names : List (Nat × Word)) (name : Nat) (v : Word) :
    (bindName names name v).lookup name = some v :=
  List.lookup_cons_self

/-- Binding a name leaves every other name. -/
theorem lookup_bindName_other (names : List (Nat × Word)) {name other : Nat} (v : Word) (h : other ≠ name) :
    (bindName names name v).lookup other = names.lookup other := by
  have filtered : (names.filter fun e => e.1 != name).lookup other = names.lookup other := by
    induction names with
    | nil => rfl
    | cons e names ih =>
      obtain ⟨n, x⟩ := e
      by_cases hn : n = name
      · subst hn
        simp [List.lookup_cons, beq_false_of_ne h, ih]
      · simp [List.lookup_cons, hn, ih]
  rw [bindName, List.lookup_cons, beq_false_of_ne h, filtered]

/-- The host moves next whatever operation it has to come. -/
theorem hostNext_replace {s : State} {op : HostOp} {rest : List HostOp} (h : HostNext s op rest) (op' : HostOp) :
    HostNext { s with hostOps := op' :: rest } op' rest := by
  obtain ⟨-, hreset, hturn⟩ := h
  exact ⟨rfl, hreset, hturn⟩

/-- A legal `X` keeps the value of the register at its offset (30_encoding.md R89). -/
theorem step_readKeep_legal {s : State} {name off : Nat} {rest : List HostOp}
    (h : HostNext s (.readKeep name off) rest) (hlt : off < 0x200) (halign : off % 4 = 0) :
    step s = .next ((used s rest).keep name (regAt off)) := by
  rw [step_of_hostNext h (.inl nofun), hostAct, access_legal _ _ hlt halign]

/-- A write of a kept value is the write of that value (30_encoding.md R89). -/
theorem hostAct_writeKept {s : State} {name : Nat} {v : Word} (h : s.hostNames.lookup name = some v) (off : Nat) :
    hostAct (.writeKept name off) s = hostAct (.write off 4 v) s := by
  simp only [hostAct, h]

/-- A write under a name that nothing is kept under is refused by name (log entry 11). -/
theorem hostAct_writeKept_unbound {s : State} {name : Nat} (h : s.hostNames.lookup name = none) (off : Nat) :
    hostAct (.writeKept name off) s = .refused .unboundHostName := by
  simp only [hostAct, h]

/-- Settles O47: `X` is the read, with one name bound, and `W` of a name is the write of what it is bound to. -/
theorem hostVariablesCarryValues : Obligations.HostVariablesCarryValues := by
  refine ⟨fun s name off rest hnext hlt halign => ?_, fun s name off v rest hnext hbound => ?_,
    fun s name off rest hnext hunbound => ?_⟩
  · exact ⟨(used s rest).readReg (regAt off), (used s rest).readValue (regAt off),
      bindName s.hostNames name ((used s rest).readValue (regAt off)),
      step_read_legal (hostNext_replace hnext _) hlt halign, rfl, step_readKeep_legal hnext hlt halign,
      lookup_bindName_same .., fun other => lookup_bindName_other _ _⟩
  · rw [step_of_hostNext hnext (.inl nofun), step_of_hostNext (hostNext_replace hnext (.write off 4 v)) (.inl nofun)]
    exact hostAct_writeKept (s := used s rest) hbound off
  · rw [step_of_hostNext hnext (.inl nofun)]
    exact hostAct_writeKept_unbound (s := used s rest) hunbound off

/-! ### WAIT -/

/-- WAIT with BUSY = 0 reads STATUS once and is used up (30_encoding.md R89). -/
theorem step_wait_idle {s : State} {rest : List HostOp} (h : HostNext s .wait rest) (hidle : s.status.busy = false) :
    step s = .next { used s rest with reads := s.status.word :: s.reads } := by
  rw [step_of_hostNext h (.inr hidle), hostAct, readReg_of_held rfl]
  rfl

/-- A poll of WAIT with BUSY = 1 reads STATUS and leaves WAIT to come (30_encoding.md R89). -/
theorem step_wait_busy {s : State} {rest : List HostOp} (h : HostNext s .wait rest) (hb : s.status.busy = true) :
    step s = .next { s with turns := s.turns.tail, reads := s.status.word :: s.reads } := by
  rw [step_host (engineTurn_of_hostNext h)]
  obtain ⟨hops, hreset, -⟩ := h
  rw [hostStep_poll (s := s.takeTurn) hops hreset hb, readReg_of_held rfl, State.takeTurn, if_pos hb]
  rfl

/-- Every command ends in a next state (44_control.md R196). -/
theorem exec_next (i : Instr) (s : State) : ∃ t, exec i s = .next t := by
  cases hscalar : scalar i with
  | true =>
    rcases exec_scalar hscalar s with ⟨v, -, e⟩ | e
    · exact ⟨_, e⟩
    · exact ⟨_, e⟩
  | false =>
    cases hstate : writesState i with
    | true =>
      rcases exec_writesState hstate s with ⟨b, e⟩ | ⟨code, e⟩
      · exact ⟨_, e⟩
      · exact ⟨_, e⟩
    | false =>
      rcases eq_nop_or_expand hscalar hstate with rfl | rfl
      · exact ⟨_, rfl⟩
      · simp only [exec, execExpand]
        split
        · exact ⟨_, rfl⟩
        · exact ⟨_, rfl⟩

/-- Every engine step ends in a next state. -/
theorem engineStep_next (s : State) : ∃ t, engineStep s = .next t := by
  unfold engineStep
  split
  · exact exec_next _ s
  · exact ⟨_, rfl⟩

/-- The command has ended, and the host has the same operations to come, out of reset as before. -/
def EndedForHost (s t : State) : Prop :=
  t.status.busy = false ∧ t.status.done = true ∧ t.inReset = s.inReset ∧ t.hostOps = s.hostOps

theorem exec_endedForHost {i : Instr} {s t : State} (h : exec i s = .next t) : EndedForHost s t := by
  rcases exec_cases h with ⟨code, -, rfl⟩ | rfl | ⟨v, rfl⟩ | ⟨b, rfl⟩ | ⟨v, -, -, rfl⟩ <;> exact ⟨rfl, rfl, rfl, rfl⟩

/-- The engine's step ends the command in flight and takes nothing from the host (44_control.md R193). -/
theorem engineStep_endedForHost {s t : State} (h : engineStep s = .next t) : EndedForHost s t := by
  rcases engineStep_cases h with ⟨i, -, hexec⟩ | ⟨r, -, rfl⟩
  · exact exec_endedForHost hexec
  · exact ⟨rfl, rfl, rfl, rfl⟩

/-- A run takes its first step and goes on from there. -/
theorem run_succ (M : Host.Core) {s t : M.State} (h : M.step s = .next t) (n : Nat) :
    M.run (n + 1) s = M.run n t := by
  rw [Host.Core.run, h]

/-- A host that waits is past its WAIT after `n` steps, with the command ended. -/
def WaitEndsAfter (n : Nat) (s : State) (rest : List HostOp) : Prop :=
  ∃ t : State, core.run n s = .next t ∧ t.hostOps = rest ∧ t.status.busy = false ∧ t.status.done = true

theorem waitEndsAfter_succ {s t : State} {rest : List HostOp} {n : Nat} (h : step s = .next t)
    (ht : WaitEndsAfter n t rest) : WaitEndsAfter (n + 1) s rest := by
  obtain ⟨u, hrun, hu⟩ := ht
  exact ⟨u, (run_succ core h n).trans hrun, hu⟩

/-- With the command ended, one step leads past the WAIT. -/
theorem waitEndsAfter_one {s : State} {rest : List HostOp} (hidle : s.status.busy = false)
    (hdone : s.status.done = true) (hreset : s.inReset = false) (hops : s.hostOps = .wait :: rest) :
    WaitEndsAfter 1 s rest := by
  have hnext : HostNext s .wait rest := ⟨hops, hreset, fun hb => absurd (hb.symm.trans hidle) (by decide)⟩
  exact waitEndsAfter_succ (step_wait_idle hnext hidle) ⟨_, rfl, rfl, hidle, hdone⟩

/-- With the engine to move, two steps lead past the WAIT: the command's and the last poll. -/
theorem waitEndsAfter_two {s : State} {rest : List HostOp} (hturn : s.engineTurn = true)
    (hops : s.hostOps = .wait :: rest) : WaitEndsAfter 2 s rest := by
  obtain ⟨-, hreset, -⟩ := (engineTurn_iff s).1 hturn
  obtain ⟨t, ht⟩ := engineStep_next s.takeTurn
  obtain ⟨hidle, hdone, hr, hh⟩ := engineStep_endedForHost ht
  exact waitEndsAfter_succ ((step_engine hturn).trans ht) (waitEndsAfter_one hidle hdone (hr.trans hreset) (hh.trans hops))

/-- However the turns laid down fall, a host that waits on a command in flight gets past its WAIT within two steps more
than their number (44_control.md R196; log entry 9). -/
theorem exists_waitEndsAfter (turns : List Agent) : ∀ {s : State} {rest : List HostOp}, s.turns = turns →
    s.status.busy = true → s.inReset = false → s.hostOps = .wait :: rest →
    ∃ n ≤ turns.length + 2, WaitEndsAfter n s rest := by
  induction turns with
  | nil =>
    intro s rest hturns hb hreset hops
    exact ⟨2, by simp, waitEndsAfter_two ((engineTurn_iff s).2 ⟨hb, hreset, by simp [hturns]⟩) hops⟩
  | cons agent turns ih =>
    intro s rest hturns hb hreset hops
    cases agent with
    | engine => exact ⟨2, by simp, waitEndsAfter_two ((engineTurn_iff s).2 ⟨hb, hreset, by simp [hturns]⟩) hops⟩
    | host =>
      have hpoll := step_wait_busy ⟨hops, hreset, fun _ => by simp [hturns]⟩ hb
      obtain ⟨n, hn, hends⟩ := ih (s := { s with turns := s.turns.tail, reads := s.status.word :: s.reads })
        (by simp [hturns]) hb hreset hops
      exact ⟨n + 1, by simp; omega, waitEndsAfter_succ hpoll hends⟩

/-- Settles O60: the two polls, and the bound by induction on the turns. -/
theorem waitEnds : Obligations.WaitEnds := by
  refine ⟨fun s rest => step_wait_idle, fun s rest => step_wait_busy, fun s rest hb hreset hops => ?_⟩
  obtain ⟨n, hn, t, ht⟩ := exists_waitEndsAfter s.turns rfl hb hreset hops
  exact ⟨n, t, hn, ht⟩

end Sys2Proof.Proofs
end

section
/-! The words of a format N command: its encoding, and the others with its opcode (spec/30_encoding.md R82, R86). -/

namespace Sys2Proof.Proofs

open Sys2Proof.Machine Sys2Proof.Statement

theorem immediate_of_format_n {i : Instr} (h : i.format = .n) : i.immediate = 0 := by
  cases i with
  | wbyte n | addrk n => cases h
  | _ => rfl

/-- The opcode of a format N command is not one of format I (30_encoding.md R84). -/
theorem opcode_of_format_n {i : Instr} (h : i.format = .n) : i.opcode.toNat ∉ [0x23, 0x46] := by
  cases i with
  | wbyte n | addrk n => cases h
  | _ => decide

/-- The encoding of a command without an immediate is its opcode, zero-extended (30_encoding.md R88). -/
theorem encode_of_immediate_zero {i : Instr} (h : i.immediate = 0) : encode i = i.opcode.setWidth 32 := by
  simp [encode, h]

/-- A format N command has one valid word, since another instruction with its opcode would have no immediate either. -/
theorem encodedN_of_format_n {i : Instr} (h : i.format = .n) : EncodedN i.opcode i := by
  have himm := immediate_of_format_n h
  constructor
  · rw [← encode_of_immediate_zero himm]
    exact decode_encode ((wf_iff_immediate_le i).2 (by omega))
  · intro w hop hne
    refine endsIllegal_of_not_carries fun j hj => hne ?_
    obtain ⟨-, hword⟩ := encode_of_carriesFields hj
    obtain ⟨-, hopj, -⟩ := hj
    have hopcode : j.opcode = i.opcode := by rw [← hopj, opField_eq_setWidth, hop]
    have himmj : j.immediate = 0 := by
      by_contra hne0
      exact opcode_of_format_n h (hopcode ▸ opcode_of_immediate_ne_zero hne0)
    rw [← hword, encode_of_immediate_zero himmj, hopcode]

end Sys2Proof.Proofs
end

section
/-! The field of bytes: `gmul` is the product of polynomials modulo 0x11B, and it is commutative
(spec/40_gf_arith.md R100 to R105, R109 to R112). -/

namespace Sys2Proof.Proofs

open Sys2Proof.Machine Sys2Proof.Statement

/-- A scalar command's end is the state with its result and nothing else changed but STATUS (44_control.md R193). -/
theorem finishResult_eq_withResult (v : Word) (s : State) : finishResult v s = .next (withResult s v) := rfl

/-! ### Zero-extended bytes -/

theorem lowByte_xor (v w : Word) : lowByte (v ^^^ w) = lowByte v ^^^ lowByte w := BitVec.setWidth_xor

theorem zext_xor (a b : Byte) : zext (a ^^^ b) = zext a ^^^ zext b := BitVec.setWidth_xor

theorem getLsbD_zext_of_le (a : Byte) {k : Nat} (hk : 8 ≤ k) : (zext a).getLsbD k = false := by
  simp [zext, BitVec.getLsbD_of_ge a k hk]

theorem getLsbD_zext_of_lt (a : Byte) {k : Nat} (hk : k < 8) : (zext a).getLsbD k = a.getLsbD k := by
  simp [zext, show k < 32 by omega]

theorem zext_ushiftRight_one (b : Byte) : zext b >>> 1 = zext (b >>> 1) := by
  unfold zext
  bv_omega

/-! ### Reduction by 0x11B -/

/-- One step of the division by 0x11B: the coefficient of `x^(8+k)` is cleared. -/
def reduceAt (k : Nat) (q : Word) : Word := if q.getLsbD (8 + k) then q ^^^ 0x11b#32 <<< k else q

theorem polyRemainder_eq (p : Word) :
    polyRemainder p =
      reduceAt 0 (reduceAt 1 (reduceAt 2 (reduceAt 3 (reduceAt 4 (reduceAt 5 (reduceAt 6 p)))))) := rfl

theorem doubled_eq (a : Word) : doubled a = reduceAt 0 (a <<< 1) := rfl

theorem reduceAt_of_getLsbD_false {k : Nat} {q : Word} (h : q.getLsbD (8 + k) = false) : reduceAt k q = q := by
  simp [reduceAt, h]

theorem reduceAt_xor (k : Nat) (p q : Word) : reduceAt k (p ^^^ q) = reduceAt k p ^^^ reduceAt k q := by
  unfold reduceAt
  rw [BitVec.getLsbD_xor]
  generalize 0x11b#32 <<< k = m
  cases p.getLsbD (8 + k) <;> cases q.getLsbD (8 + k)
  · rfl
  · exact BitVec.xor_assoc ..
  · have hm : p ^^^ q ^^^ m = p ^^^ m ^^^ q := by ac_rfl
    simp [hm]
  · have hm : p ^^^ m ^^^ (q ^^^ m) = p ^^^ q ^^^ (m ^^^ m) := by ac_rfl
    simp [hm]

/-- Dividing `x * p` one degree up is dividing `p`. -/
theorem reduceAt_succ_shiftLeft_one {k : Nat} (hk : 8 + k < 31) (p : Word) :
    reduceAt (k + 1) (p <<< 1) = reduceAt k p <<< 1 := by
  have hbit : (p <<< 1).getLsbD (8 + (k + 1)) = p.getLsbD (8 + k) := by
    grind
  unfold reduceAt
  rw [hbit]
  split
  · rw [BitVec.shiftLeft_add, BitVec.shiftLeft_xor_distrib]
  · rfl

/-- The remainder respects the addition of polynomials. -/
theorem polyRemainder_xor (p q : Word) : polyRemainder (p ^^^ q) = polyRemainder p ^^^ polyRemainder q := by
  simp only [polyRemainder_eq, reduceAt_xor]

/-- The remainder of `x * p` is the remainder of `p` doubled, for `p` of degree at most 13. -/
theorem polyRemainder_shiftLeft_one {p : Word} (h : p.getLsbD 14 = false) :
    polyRemainder (p <<< 1) = doubled (polyRemainder p) := by
  rw [polyRemainder_eq p, reduceAt_of_getLsbD_false (k := 6) h, polyRemainder_eq, doubled_eq]
  iterate 6 rw [reduceAt_succ_shiftLeft_one (by decide)]

/-- A byte is its own remainder. -/
theorem polyRemainder_zext (a : Byte) : polyRemainder (zext a) = zext a := by
  have step (k : Nat) : reduceAt k (zext a) = zext a :=
    reduceAt_of_getLsbD_false (getLsbD_zext_of_le a (Nat.le_add_right 8 k))
  simp only [polyRemainder_eq, step]

/-- `xtime` is the doubling modulo 0x11B (40_gf_arith.md R102). -/
theorem doubled_zext (a : Byte) : doubled (zext a) = zext (xtime a) := by
  revert a
  decide +kernel

/-- The remainder of a byte times `x^i` is the byte doubled `i` times. -/
theorem polyRemainder_zext_shiftLeft (a : Byte) {i : Nat} (hi : i ≤ 7) :
    polyRemainder (zext a <<< i) = zext (xtime^[i] a) := by
  induction i with
  | zero => simpa using polyRemainder_zext a
  | succ i ih =>
    have hdegree : (zext a <<< i).getLsbD 14 = false := by
      rw [BitVec.getLsbD_shiftLeft, getLsbD_zext_of_le a (by omega), Bool.and_false]
    rw [BitVec.shiftLeft_add, polyRemainder_shiftLeft_one hdegree, ih (by omega), doubled_zext,
      Function.iterate_succ_apply']

/-! ### The product -/

/-- The first `n` terms of the schoolbook product, added to `acc`: bit `i` of `b` selects `a <<< i`. -/
def addTerms (n : Nat) (a b acc : Word) : Word :=
  (List.range n).foldl (fun acc i => if b.getLsbD i then acc ^^^ a <<< i else acc) acc

theorem polyProduct_eq_addTerms (a b : Word) : polyProduct a b = addTerms 8 a b 0 := rfl

/-- The product by its lowest term, and the rest as a product of `x * a`. -/
theorem addTerms_succ (n : Nat) (a b acc : Word) :
    addTerms (n + 1) a b acc = addTerms n (a <<< 1) (b >>> 1) (if b.getLsbD 0 then acc ^^^ a else acc) := by
  simp only [addTerms, List.range_succ_eq_map, List.foldl_cons, List.foldl_map, BitVec.getLsbD_ushiftRight,
    Nat.add_comm 1, Nat.succ_eq_add_one, BitVec.shiftLeft_zero, ← BitVec.shiftLeft_add]

/-- The remainder of the product is the sum of the doublings of `a`, when those are the remainders of the shifts
of `p`. -/
theorem polyRemainder_addTerms {n : Nat} {p : Word} {a : Byte} (b : Byte) (acc : Word)
    (h : ∀ i < n, polyRemainder (p <<< i) = zext (xtime^[i] a)) :
    polyRemainder (addTerms n p (zext b) acc) = polyRemainder acc ^^^ zext (doublingSum n a b) := by
  induction n generalizing p a b acc with
  | zero => simp [addTerms, doublingSum, zext]
  | succ n ih =>
    have hp : polyRemainder p = zext a := by simpa using h 0 (by omega)
    have hshift (i : Nat) (hi : i < n) : polyRemainder (p <<< 1 <<< i) = zext (xtime^[i] (xtime a)) := by
      rw [← BitVec.shiftLeft_add, Nat.add_comm, h (i + 1) (by omega), Function.iterate_succ_apply]
    rw [addTerms_succ, show zext b >>> 1 = zext (b >>> 1) from zext_ushiftRight_one b, ih _ _ hshift, doublingSum,
      getLsbD_zext_of_lt b (by decide)]
    cases b.getLsbD 0 <;> simp [zext_xor, polyRemainder_xor, hp, BitVec.xor_assoc]

/-- `gmul` is the product of polynomials modulo 0x11B (40_gf_arith.md R105). -/
theorem polyRemainder_polyProduct_zext (a b : Byte) :
    polyRemainder (polyProduct (zext a) (zext b)) = zext (gmul a b) := by
  rw [polyProduct_eq_addTerms, polyRemainder_addTerms b 0 fun i hi => polyRemainder_zext_shiftLeft a (by omega),
    gmul_eq_doublingSum]
  exact BitVec.zero_xor

theorem fieldProduct_eq_gmul (a b : Byte) : fieldProduct a b = gmul a b := by
  change lowByte (polyRemainder (polyProduct (zext a) (zext b))) = gmul a b
  rw [polyRemainder_polyProduct_zext, lowByte_zext]

/-! ### The laws of the product -/

@[simp] theorem gmul_zero_left (b : Byte) : gmul 0#8 b = 0#8 := by
  rw [gmul_eq_doublingSum]
  exact doublingSum_zero_left 8 b

@[simp] theorem gmul_zero_right (a : Byte) : gmul a 0#8 = 0#8 := by
  rw [gmul_eq_doublingSum]
  exact doublingSum_zero_right 8 a

/-- A sum of doublings, doubled. -/
theorem doublingSum_xtime (n : Nat) (a b : Byte) : doublingSum n (xtime a) b = xtime (doublingSum n a b) := by
  induction n generalizing a b with
  | zero => exact xtime_zero.symm
  | succ n ih =>
    rw [doublingSum, doublingSum, xtime_xor, ih]
    cases b.getLsbD 0 <;> simp

theorem gmul_xtime_left (a b : Byte) : gmul (xtime a) b = xtime (gmul a b) := by
  simp only [gmul_eq_doublingSum, doublingSum_xtime]

theorem gmul_doublingSum_left (n : Nat) (a b c : Byte) :
    gmul (doublingSum n a b) c = doublingSum n (gmul a c) b := by
  induction n generalizing a b with
  | zero => exact gmul_zero_left c
  | succ n ih =>
    rw [doublingSum, doublingSum, gmul_xor_left, ih, gmul_xtime_left]
    cases b.getLsbD 0 <;> simp

/-- The two right factors of a product of three can be exchanged. -/
theorem gmul_right_comm (a b c : Byte) : gmul (gmul a b) c = gmul (gmul a c) b := by
  rw [gmul_eq_doublingSum a b, gmul_doublingSum_left, ← gmul_eq_doublingSum]

/-- Multiplication is commutative: in a product of three, the first factor is 1 (40_gf_arith.md R105). -/
theorem gmul_comm (a b : Byte) : gmul a b = gmul b a := by
  simpa only [gmul_one_left] using gmul_right_comm 1 a b

/-- Settles O14: the product of polynomials, and commutativity, which turns the laws of the left factor into the
others. -/
theorem fieldMultiplicationLaws : Obligations.FieldMultiplicationLaws := by
  intro a b
  have two : gmul a 2 = xtime a := (gmul_comm a 2).trans (gmul_two_left a)
  exact ⟨(fieldProduct_eq_gmul a b).symm, gmul_comm a b, two, two, (gmul_comm a 3).trans (gmul_three_left a),
    (gmul_comm a 1).trans (gmul_one_left a), gmul_zero_right a, gmul_zero_left a⟩

/-! ### The scalar commands on bytes -/

/-- Settles O10: the low byte of an exclusive-or is that of the low bytes. -/
theorem gaddXorsTheLowBytes : Obligations.GaddXorsTheLowBytes := by
  refine ⟨encodedN_of_format_n (i := .gadd) rfl, fun s => ?_⟩
  rw [← zext_lowByte, lowByte_xor]
  exact finishResult_eq_withResult _ s

/-- Settles O11: `xtime` is the doubling modulo 0x11B. -/
theorem gdblDoublesTheLowByte : Obligations.GdblDoublesTheLowByte := by
  refine ⟨encodedN_of_format_n (i := .gdbl) rfl, fun s => ?_⟩
  rw [← zext_lowByte, doubled_zext]
  exact finishResult_eq_withResult _ s

/-- Settles O12: `gtriple` is the doubled byte and the byte. -/
theorem gtplTriplesTheLowByte : Obligations.GtplTriplesTheLowByte := by
  refine ⟨encodedN_of_format_n (i := .gtpl) rfl, fun s => ?_⟩
  rw [← zext_lowByte, doubled_zext, ← zext_xor]
  exact finishResult_eq_withResult _ s

/-- Settles O13: `gmul` is the remainder of the product. -/
theorem gmulIsThePolynomialProduct : Obligations.GmulIsThePolynomialProduct := by
  refine ⟨encodedN_of_format_n (i := .gmul) rfl, fun s => ?_⟩
  rw [← zext_lowByte, ← zext_lowByte, polyRemainder_polyProduct_zext]
  exact finishResult_eq_withResult _ s

end Sys2Proof.Proofs
end

section
/-! The two column mixers as commands (spec/40_gf_arith.md R106 to R108, R113, R114). -/

namespace Sys2Proof.Proofs

open Sys2Proof.Machine Sys2Proof.Statement

theorem exec_mixcol (s : State) : exec .mixcol s = .next (withResult s (mixColumn s.opa)) := rfl

theorem exec_invmixcol (s : State) : exec .invmixcol s = .next (withResult s (invMixColumn s.opa)) := rfl

theorem mixRow_ofBytes (m0 m1 m2 m3 a b c d : Byte) :
    mixRow m0 m1 m2 m3 (ofBytes a b c d) = gmul m0 a ^^^ gmul m1 b ^^^ gmul m2 c ^^^ gmul m3 d := by
  simp only [mixRow, byteOf_ofBytes_zero, byteOf_ofBytes_one, byteOf_ofBytes_two, byteOf_ofBytes_three]

/-- A row times four equal bytes is the sum of the row times the byte. -/
theorem topRow_const (p q r s b : Byte) : topRow p q r s b b b b = gmul (p ^^^ q ^^^ r ^^^ s) b := by
  simp only [topRow, gmul_xor_left]

/-- Each row of the forward matrix sums to 1 (40_gf_arith.md R113). -/
theorem mixColumn_const (b : Byte) : mixColumn (ofBytes b b b b) = ofBytes b b b b := by
  rw [mixColumn_ofBytes, topRow_const, show (2 ^^^ 3 ^^^ 1 ^^^ 1 : Byte) = 1 by decide, gmul_one_left]

/-- Each row of the inverse matrix sums to 1 (40_gf_arith.md R114). -/
theorem invMixColumn_const (b : Byte) : invMixColumn (ofBytes b b b b) = ofBytes b b b b := by
  rw [invMixColumn_ofBytes, topRow_const, show (14 ^^^ 11 ^^^ 13 ^^^ 9 : Byte) = 1 by decide, gmul_one_left]

/-- Settles O15: the rows of the forward matrix, whose coefficients are 1, doubling and tripling. -/
theorem mixcolMultipliesByTheMatrix : Obligations.MixcolMultipliesByTheMatrix := by
  refine ⟨encodedN_of_format_n (i := .mixcol) rfl, fun s c0 c1 c2 c3 hopa => ?_, fun s b hopa => ?_⟩
  · replace hopa : s.opa = ofBytes c0 c1 c2 c3 := hopa
    rw [exec_mixcol, hopa]
    simp only [mixColumn, mixRow_ofBytes, gmul_one_left, gmul_two_left, gmul_three_left]
    rfl
  · replace hopa : s.opa = ofBytes b b b b := hopa
    rw [exec_mixcol, hopa, mixColumn_const]

/-- Settles O16: the rows of the inverse matrix, which undoes the forward one. -/
theorem invmixcolMultipliesByTheInverseMatrix : Obligations.InvmixcolMultipliesByTheInverseMatrix := by
  refine ⟨encodedN_of_format_n (i := .invmixcol) rfl, fun s c0 c1 c2 c3 hopa => ?_, fun s b hopa => ?_, fun s => ?_⟩
  · replace hopa : s.opa = ofBytes c0 c1 c2 c3 := hopa
    rw [exec_invmixcol, hopa]
    simp only [invMixColumn, mixRow_ofBytes]
    rfl
  · replace hopa : s.opa = ofBytes b b b b := hopa
    rw [exec_invmixcol, hopa, invMixColumn_const]
  · exact ⟨_, _, exec_mixcol s, exec_invmixcol _, invMixColumn_mixColumn s.opa⟩

/-- Settles O17: the two matrices are inverses of each other. -/
theorem mixersUndoEachOther : Obligations.MixersUndoEachOther := fun s =>
  ⟨⟨_, _, exec_mixcol s, exec_invmixcol _, invMixColumn_mixColumn s.opa⟩,
    ⟨_, _, exec_invmixcol s, exec_mixcol _, mixColumn_invMixColumn s.opa⟩⟩

end Sys2Proof.Proofs
end

section
/-! The words of a format I command: its encodings, and the others with its opcode (spec/30_encoding.md R82, R86). -/

namespace Sys2Proof.Proofs

open Sys2Proof.Machine Sys2Proof.Statement

/-- A command that takes any immediate with one opcode has one valid word for each value of IMM8. -/
theorem encodedI_of_immediate {op : BitVec 8} {i : Nat → Instr} (hop : ∀ n, (i n).opcode = op)
    (himm : ∀ n, (i n).immediate = n) : EncodedI op i := by
  refine ⟨fun n hn => ?_, fun w _ hrsv => endsIllegal_of_not_carries fun j ⟨hzero, _, _⟩ => hrsv hzero⟩
  have hword : encode (i n) = op.setWidth 32 ||| BitVec.ofNat 32 n <<< 8 := by
    rw [encode, hop, himm, BitVec.or_comm]
  rw [← hword]
  exact decode_encode ((wf_iff_immediate_le _).2 (by rwa [himm]))

end Sys2Proof.Proofs
end

section
/-! The substitution commands SUBB, INVSUBB, SUBW and WBYTE (spec/41_substitution.md R120 to R129). -/

namespace Sys2Proof.Proofs

open Sys2Proof.Machine Sys2Proof.Statement

/-! ### What each command writes -/

theorem exec_subb (s : State) : exec .subb s = .next (withResult s (zext (subByte (lowByte s.opa)))) := rfl

theorem exec_invsubb (s : State) : exec .invsubb s = .next (withResult s (zext (invSubByte (lowByte s.opa)))) := rfl

theorem exec_subw (s : State) : exec .subw s = .next (withResult s (subWord s.opa)) := rfl

theorem exec_rotw (s : State) : exec .rotw s = .next (withResult s (rotWord s.opa)) := rfl

theorem exec_wbyte_of_lt (s : State) {i : Nat} (h : i < 4) :
    exec (.wbyte i) s = .next (withResult s (zext (byteOf s.opa ⟨i, h⟩))) := dif_pos h

theorem exec_wbyte_of_le (s : State) {i : Nat} (h : 4 ≤ i) : exec (.wbyte i) s = .next (failed s .operandRange) :=
  dif_neg (Nat.not_lt.2 h)

/-! ### The S-box is the affine map of the inverse -/

/-- The affine map with the constant 0x63, as turns of the byte (41_substitution.md R122). -/
def affineMap (b : Byte) : Byte :=
  b ^^^ b.rotateRight 4 ^^^ b.rotateRight 5 ^^^ b.rotateRight 6 ^^^ b.rotateRight 7 ^^^ 0x63#8

/-- The byte that the affine map takes to `y`. -/
def affinePreimage (y : Byte) : Byte := y.rotateLeft 1 ^^^ y.rotateLeft 3 ^^^ y.rotateLeft 6 ^^^ 0x05#8

theorem affineMap_affinePreimage : ∀ y : Byte, affineMap (affinePreimage y) = y := by decide +kernel

/-- The inverse of a field element, read off the forward table through the affine map (41_substitution.md R122). -/
def fieldInverse (a : Byte) : Byte := affinePreimage (subByte a)

theorem fieldInverse_zero : fieldInverse 0#8 = 0#8 := by decide

/-- What lies under the affine map in the forward table is the inverse in the field. -/
theorem gmul_fieldInverse : ∀ a : Byte, a ≠ 0#8 → gmul a (fieldInverse a) = 1 := by decide +kernel

/-- Every entry of the forward table is the affine map of the inverse of its index (41_substitution.md R122). -/
theorem affineMap_fieldInverse (a : Byte) : affineMap (fieldInverse a) = subByte a :=
  affineMap_affinePreimage (subByte a)

/-- Settles O18: the byte is the inverse in the field, of which the table holds the affine map. -/
theorem subbIsTheAffineMapOfTheInverse : Obligations.SubbIsTheAffineMapOfTheInverse := by
  have corner {s : State} {a : Byte} (h : s.opa.setWidth 8 = a) :
      exec .subb s = .next (withResult s (zext (subByte a))) := h ▸ exec_subb s
  refine ⟨encodedN_of_format_n (i := .subb) rfl, fun s => ?_, fun s h => corner h, fun s h => corner h,
    fun s h => corner h⟩
  refine ⟨fieldInverse (lowByte s.opa), fun hzero => ?_, fun hne => ?_, ?_⟩
  · exact (congrArg fieldInverse hzero).trans fieldInverse_zero
  · exact (fieldProduct_eq_gmul _ _).trans (gmul_fieldInverse _ hne)
  · rw [exec_subb, ← affineMap_fieldInverse]
    rfl

/-! ### The two tables are inverses -/

/-- Settles O19: each of the two byte functions undoes the other, on the low byte. -/
theorem invsubbUndoesSubb : Obligations.InvsubbUndoesSubb := by
  have corner {s : State} {a : Byte} (h : s.opa.setWidth 8 = a) :
      exec .invsubb s = .next (withResult s (zext (invSubByte a))) := h ▸ exec_invsubb s
  refine ⟨encodedN_of_format_n (i := .invsubb) rfl,
    fun s => ⟨invSubByte (lowByte s.opa), subByte_invSubByte _, exec_invsubb s⟩,
    fun s => ⟨_, _, exec_subb s, exec_invsubb _, ?_⟩, fun s => ⟨_, _, exec_invsubb s, exec_subb _, ?_⟩,
    fun s h => corner h, fun s h => corner h, fun s h => corner h⟩
  · change zext (invSubByte (lowByte (zext (subByte (lowByte s.opa))))) = _
    rw [lowByte_zext, invSubByte_subByte, zext_lowByte]
  · change zext (subByte (lowByte (zext (invSubByte (lowByte s.opa))))) = _
    rw [lowByte_zext, subByte_invSubByte, zext_lowByte]

/-! ### The bytes of a word -/

theorem subWord_ofBytes (a b c d : Byte) :
    subWord (ofBytes a b c d) = ofBytes (subByte a) (subByte b) (subByte c) (subByte d) := by
  simp only [subWord, mapBytes, byteOf_ofBytes_zero, byteOf_ofBytes_one, byteOf_ofBytes_two, byteOf_ofBytes_three]

/-- Substitution in place commutes with the rotation by one byte (41_substitution.md R128). -/
theorem subWord_rotWord (w : Word) : subWord (rotWord w) = rotWord (subWord w) := by
  simp only [rotWord, subWord_ofBytes, byteOf_subWord]

/-- Settles O20: SUBW byte by byte, each byte where it stands. -/
theorem subwSubstitutesEachByte : Obligations.SubwSubstitutesEachByte := by
  have bytes (s : State) (a b c d : Byte) (hopa : s.opa = ofBytes a b c d) :
      exec .subw s = .next (withResult s (ofBytes (subByte a) (subByte b) (subByte c) (subByte d))) := by
    rw [exec_subw, hopa, subWord_ofBytes]
  exact ⟨encodedN_of_format_n (i := .subw) rfl, bytes,
    fun s => ⟨_, _, _, _, exec_rotw s, exec_subw _, exec_subw s, exec_rotw _, subWord_rotWord s.opa⟩,
    fun s h => bytes s 0 0 0 0 h, fun s h => bytes s 0xff 0xff 0xff 0xff h⟩

/-- Byte `i` of a word is the low byte of the word shifted right (41_substitution.md R125). -/
theorem zext_byteOf (w : Word) (i : Fin 4) : zext (byteOf w i) = (w >>> (24 - 8 * i.val)) &&& 0xff#32 := by
  rw [← zext_lowByte]
  rfl

/-- Settles O21: WBYTE on the two sides of its range. -/
theorem wbyteExtractsOneByte : Obligations.WbyteExtractsOneByte := by
  refine ⟨encodedI_of_immediate (fun _ => rfl) fun _ => rfl, fun s i hi => ?_, fun s i hi => exec_wbyte_of_le s hi⟩
  rw [exec_wbyte_of_lt s (Nat.lt_succ_of_le hi), zext_byteOf]

end Sys2Proof.Proofs
end

section
/-! The key schedule: the rotation, the round constants and EXPAND (spec/42_key_schedule.md R140 to R146). -/

namespace Sys2Proof.Proofs

open Sys2Proof.Machine Sys2Proof.Statement

/-! ### The rotation by one byte -/

/-- Bytes 1, 2, 3 and 0 of a word in that order are the word rotated left by 8 bits (42_key_schedule.md R142). -/
theorem rotWord_eq_rotateLeft (w : Word) : rotWord w = w.rotateLeft 8 := by
  unfold rotWord ofBytes byteOf
  ext i hi
  simp [BitVec.getElem_rotateLeft]
  grind

theorem rotWord_ofBytes (a b c d : Byte) : rotWord (ofBytes a b c d) = ofBytes b c d a := by
  simp only [rotWord, byteOf_ofBytes_zero, byteOf_ofBytes_one, byteOf_ofBytes_two, byteOf_ofBytes_three]

/-- Four rotations by a byte turn a word once around (42_key_schedule.md R145). -/
theorem rotWord_rotWord_rotWord_rotWord (w : Word) : rotWord (rotWord (rotWord (rotWord w))) = w := by
  rw [← ofBytes_byteOf w]
  simp only [rotWord_ofBytes]

/-- Settles O22: the byte rotation is the rotation by 8 bits, and four of them are none. -/
theorem rotwRotatesLeftOneByte : Obligations.RotwRotatesLeftOneByte := by
  refine ⟨encodedN_of_format_n (i := .rotw) rfl, fun s => ?_, fun s => ?_⟩
  · rw [exec_rotw, rotWord_eq_rotateLeft]
  · exact ⟨_, _, _, _, exec_rotw s, exec_rotw _, exec_rotw _, exec_rotw _, rotWord_rotWord_rotWord_rotWord s.opa⟩

/-! ### The round constants -/

/-- Settles O23: the ten entries and the nine doublings, entry by entry. -/
theorem roundConstantsAreDoublings : Obligations.RoundConstantsAreDoublings := by
  refine ⟨rfl, fun j hlo hhi => ?_⟩
  interval_cases j <;> rfl

/-! ### The schedule that EXPAND writes -/

/-- SCHED after EXPAND with the key length of a variant (42_key_schedule.md R146). -/
def expandedSched (s : State) (v : Variant) : Vector Word 60 :=
  (s.writeSchedule v (expandKey v s.key.toList)).sched

/-- EXPAND with a legal key length writes SCHED, KVAR and KEY_VALID and ends without an error. -/
theorem exec_expand_of_keyLen {s : State} {v : Variant} (h : s.ctrl.keyLen.toNat = 4 * v.nk) :
    exec .expand s = .next { s with
      sched := expandedSched s v, schedInit := max s.schedInit v.words
      status := { ended s.status .none with keyValid := true, kvar := v } } := by
  rw [← expandKey_key_length s v]
  exact execExpand_variant s v ((ofKeyLen_eq_some _ v).2 h)

/-- EXPAND with any other key length writes nothing but its error (42_key_schedule.md R146). -/
theorem exec_expand_of_bad_keyLen {s : State} (h : s.ctrl.keyLen.toNat ∉ [16, 24, 32]) :
    exec .expand s = .next (failed s .invalidKeyLength) := by
  have hnone : Variant.ofKeyLen s.ctrl.keyLen = none := (ofKeyLen_eq_none _).2 (by simpa using h)
  rw [exec, execExpand, hnone]
  rfl

/-- The words of the schedule length are those of `expand_key` (42_key_schedule.md R146). -/
theorem schedWord_expandedSched (s : State) {v : Variant} {i : Nat} (h : i < v.words) :
    schedWord (expandedSched s v) i = (expandKey v s.key.toList).getD i 0 := by
  rw [expandedSched, schedWord_writeSchedule _ _ _ _ (h.trans_le (words_le v))]
  have hlen : i < (expandKey v s.key.toList).length := by rwa [expandKey_key_length]
  simp [hlen]

theorem nk_le_key_length (s : State) (v : Variant) : v.nk ≤ s.key.toList.length := by
  simpa using nk_le_eight v

/-- The first Nk words are the key words (42_key_schedule.md R144). -/
theorem schedWord_expandedSched_key (s : State) {v : Variant} {i : Nat} (h : i < v.nk) (h8 : i < 8) :
    schedWord (expandedSched s v) i = s.key[i] := by
  rw [schedWord_expandedSched s (h.trans_le (nk_le_words v)), List.getD_eq_getElem?_getD,
    expandKey_key v _ (nk_le_key_length s v) i h]
  simp [h8]

/-- The words from Nk on follow the recurrence (42_key_schedule.md R143). -/
theorem schedWord_expandedSched_recurrence (s : State) {v : Variant} {i : Nat} (hlo : v.nk ≤ i) (hhi : i < v.words) :
    schedWord (expandedSched s v) i =
      scheduleWord v.nk i (schedWord (expandedSched s v) (i - v.nk)) (schedWord (expandedSched s v) (i - 1)) := by
  rw [schedWord_expandedSched s hhi, schedWord_expandedSched s (i := i - v.nk) (by omega),
    schedWord_expandedSched s (i := i - 1) (by omega), List.getD_eq_getElem?_getD,
    expandKey_recurrence v _ (nk_le_key_length s v) i hlo hhi]
  rfl

/-- The words above the schedule length "keep their previous values" (42_key_schedule.md R146). -/
theorem schedWord_expandedSched_above (s : State) {v : Variant} {i : Nat} (h : v.words ≤ i) (h60 : i < 60) :
    schedWord (expandedSched s v) i = s.sched[i] := by
  have hnone : (expandKey v s.key.toList)[i]? = none := by
    rw [List.getElem?_eq_none_iff, expandKey_key_length]
    exact h
  rw [expandedSched, schedWord_writeSchedule _ _ _ _ h60, hnone, Option.getD_none, schedWord_of_lt]

/-- Settles O24: the key words, the recurrence, and the words kept. -/
theorem expandMakesTheKeySchedule : Obligations.ExpandMakesTheKeySchedule := by
  refine ⟨encodedN_of_format_n (i := .expand) rfl, fun s v hlen => ?_, fun s hbad => exec_expand_of_bad_keyLen hbad⟩
  refine ⟨expandedSched s v, exec_expand_of_keyLen hlen, fun i h8 hi => schedWord_expandedSched_key s hi h8,
    fun i hlo hhi => ?_, fun i h60 hi => schedWord_expandedSched_above s hi h60⟩
  rw [← rotWord_eq_rotateLeft]
  exact schedWord_expandedSched_recurrence s hlo hhi

/-- `expand_key` reads only the first Nk words of the key (42_key_schedule.md R144). -/
theorem expandKey_eq_of_key_eq {s s' : State} {v : Variant}
    (h : ∀ i (h8 : i < 8), i < v.nk → s'.key[i] = s.key[i]) :
    expandKey v s'.key.toList = expandKey v s.key.toList := by
  have htake : s'.key.toList.take v.nk = s.key.toList.take v.nk := by
    refine List.ext_getElem (by simp) fun i hi _ => ?_
    obtain ⟨hnk, h8⟩ : i < v.nk ∧ i < 8 := by simpa using hi
    simpa using h i h8 hnk
  rw [expandKey, htake, expandKey]

/-- Settles O25: the words of the schedule length are those of `expand_key`, which reads the key words alone. -/
theorem scheduleDependsOnTheKeyAlone : Obligations.ScheduleDependsOnTheKeyAlone := by
  intro s s' v hlen hsame hkey
  refine ⟨_, _, exec_expand_of_keyLen hlen, exec_expand_of_keyLen (hsame ▸ hlen), fun i hi => ?_⟩
  exact (schedWord_expandedSched s' hi).trans (expandKey_eq_of_key_eq hkey ▸ (schedWord_expandedSched s hi).symm)

/-! ### The resident schedule in every step -/

/-- Being an expanded key depends on the schedule and its two flags alone. -/
theorem scheduleExpanded_of_kept {s t : State} (hs : s.ScheduleExpanded) (hkept : ScheduleKept s t) :
    t.ScheduleExpanded := by
  obtain ⟨hvalid, hvar, hsched, -⟩ := hkept
  unfold State.ScheduleExpanded
  rw [hvalid, hvar, hsched]
  exact hs

/-- A command leaves the resident schedule or, if it is an EXPAND that succeeds, makes an expanded key resident. -/
theorem scheduleExpanded_exec {i : Instr} {s t : State} (hs : s.ScheduleExpanded) (h : exec i s = .next t) :
    t.ScheduleExpanded := by
  rcases exec_cases h with ⟨code, -, rfl⟩ | rfl | ⟨v, rfl⟩ | ⟨b, rfl⟩ | ⟨v, -, -, rfl⟩
  · exact hs
  · exact hs
  · exact hs
  · exact hs
  · exact fun _ i hlo hhi => schedWord_expandedSched_recurrence s hlo hhi

theorem scheduleExpanded_engineStep {s t : State} (hs : s.ScheduleExpanded) (h : engineStep s = .next t) :
    t.ScheduleExpanded := by
  rcases engineStep_cases h with ⟨i, -, hexec⟩ | ⟨r, -, rfl⟩
  · exact scheduleExpanded_exec hs hexec
  · exact hs

/-- A step of the host leaves the resident schedule, or asserts reset, after which none is resident. -/
theorem scheduleExpanded_hostStep {s t : State} (hs : s.ScheduleExpanded) (h : hostStep s = .next t) :
    t.ScheduleExpanded := by
  rcases hostStep_effects h with rfl | ⟨rest, -, rfl⟩ | ⟨rest, rfl⟩ | ⟨-, ops, r, rfl | ⟨name, rfl⟩ | ⟨v, rfl⟩⟩
  · exact hs
  · exact nofun
  · exact hs
  · exact hs
  · exact hs
  · obtain ⟨-, hkept, -⟩ := writeReg_frame { s with hostOps := ops } r v
    exact scheduleExpanded_of_kept (s := s) hs hkept

/-- Settles O59: EXPAND establishes the recurrence, reset makes it vacuous, and every other step leaves the schedule. -/
theorem residentScheduleStaysExpanded : Obligations.ResidentScheduleStaysExpanded := by
  intro s t hs hstep
  have htaken : s.takeTurn.ScheduleExpanded := hs
  rcases step_cases hstep with ⟨-, hengine⟩ | ⟨-, hhost⟩
  · exact scheduleExpanded_engineStep htaken hengine
  · exact scheduleExpanded_hostStep htaken hhost

end Sys2Proof.Proofs
end

section
/-! The State transforms and the round key as commands, and what one of them after its inverse leaves
(spec/43_round_pipeline.md R161 to R165, R169 to R175). -/

namespace Sys2Proof.Proofs

open Sys2Proof.Machine Sys2Proof.Statement

/-! ### What each command writes -/

/-- A State command's end is the state with its block and nothing else changed but STATUS (44_control.md R193). -/
theorem finishBlock_eq_withBlock (b : Block) (s : State) : finishBlock b s = .next (withBlock s b) := rfl

theorem exec_subbytes (s : State) : exec .subbytes s = .next (withBlock s (subBytes s.state)) :=
  finishBlock_eq_withBlock ..

theorem exec_invsubbytes (s : State) : exec .invsubbytes s = .next (withBlock s (invSubBytes s.state)) :=
  finishBlock_eq_withBlock ..

theorem exec_shiftrows (s : State) : exec .shiftrows s = .next (withBlock s (shiftRows s.state)) :=
  finishBlock_eq_withBlock ..

theorem exec_invshiftrows (s : State) : exec .invshiftrows s = .next (withBlock s (invShiftRows s.state)) :=
  finishBlock_eq_withBlock ..

theorem exec_mixcols (s : State) : exec .mixcols s = .next (withBlock s (mixColumns s.state)) :=
  finishBlock_eq_withBlock ..

theorem exec_invmixcols (s : State) : exec .invmixcols s = .next (withBlock s (invMixColumns s.state)) :=
  finishBlock_eq_withBlock ..

theorem exec_addrk {s : State} {rk : Nat} (hvalid : s.status.keyValid = true) (hrk : rk ≤ s.status.kvar.nr) :
    exec (.addrk rk) s = .next (withBlock s (addRoundKey s.sched rk s.state)) := execAddrk_resident s rk hvalid hrk

/-- Writing the block leaves the schedule that ADDRK reads (10_state.md R39, R40). -/
theorem exec_addrk_withBlock {s : State} {rk : Nat} (hvalid : s.status.keyValid = true) (hrk : rk ≤ s.status.kvar.nr)
    (b : Block) : exec (.addrk rk) (withBlock s b) = .next (withBlock s (addRoundKey s.sched rk b)) :=
  exec_addrk (s := withBlock s b) hvalid hrk

/-- ADDRK above Nr ends with OPERAND_RANGE and no other effect (43_round_pipeline.md R175). -/
theorem exec_addrk_above {s : State} {rk : Nat} (hvalid : s.status.keyValid = true) (hrk : s.status.kvar.nr < rk) :
    exec (.addrk rk) s = .next (failed s .operandRange) := by
  rw [exec, execAddrk, if_neg (by simp [hvalid]), if_pos hrk]
  rfl

/-! ### The elements of the written block -/

theorem elem_subBytes (b : Block) (r c : Fin 4) : (subBytes b).elem r c = subByte (b.elem r c) := by
  rw [Block.elem, subBytes, col_mapCols, byteOf_subWord, Block.elem]

theorem elem_invSubBytes (b : Block) (r c : Fin 4) : (invSubBytes b).elem r c = invSubByte (b.elem r c) := by
  rw [Block.elem, invSubBytes, col_mapCols, invSubWord, byteOf_mapBytes, Block.elem]

/-- Four turns of row `r` by `r` places are `r` whole turns (43_round_pipeline.md R171). -/
theorem shiftRows_shiftRows_shiftRows_shiftRows (b : Block) :
    shiftRows (shiftRows (shiftRows (shiftRows b))) = b := by
  have turn : ∀ r c : Fin 4, c + r + r + r + r = c := by decide
  exact block_ext fun r c => by simp only [elem_shiftRows, turn]

/-- Settles O27: element by element, and the inverse table gives the byte whose substitute the element is. -/
theorem subbytesSubstitutesEachElement : Obligations.SubbytesSubstitutesEachElement := by
  refine ⟨encodedN_of_format_n (i := .subbytes) rfl, encodedN_of_format_n (i := .invsubbytes) rfl, fun s => ⟨?_, ?_⟩⟩
  · exact ⟨_, exec_subbytes s, elem_subBytes s.state⟩
  · refine ⟨_, exec_invsubbytes s, fun r c => ?_⟩
    rw [elem_invSubBytes, subByte_invSubByte]

/-- Settles O28: the column that an element comes from is the sum or the difference in `Fin 4`. -/
theorem shiftrowsTurnsEachRow : Obligations.ShiftrowsTurnsEachRow := by
  refine ⟨encodedN_of_format_n (i := .shiftrows) rfl, encodedN_of_format_n (i := .invshiftrows) rfl,
    fun s => ⟨⟨_, exec_shiftrows s, fun r c d hd => ?_⟩, ⟨_, exec_invshiftrows s, fun r c d hd => ?_⟩⟩, fun s => ?_⟩
  · obtain rfl : d = c + r := Fin.ext (hd.trans (Fin.val_add c r).symm)
    exact elem_shiftRows s.state r c
  · obtain rfl : d = c - r := Fin.ext (by rw [hd, Fin.val_sub]; omega)
    exact elem_invShiftRows s.state r c
  · exact congrArg (fun b => Host.Outcome.next (withBlock s b)) (shiftRows_shiftRows_shiftRows_shiftRows s.state)

/-- Settles O29: the rows of the two matrices on the bytes of each column. -/
theorem mixcolsMultipliesEachColumn : Obligations.MixcolsMultipliesEachColumn := by
  refine ⟨encodedN_of_format_n (i := .mixcols) rfl, encodedN_of_format_n (i := .invmixcols) rfl,
    fun s => ⟨⟨_, exec_mixcols s, fun c => ?_⟩, ⟨_, exec_invmixcols s, fun c => ?_⟩⟩⟩
  · simp only [Block.elem, mixColumns, col_mapCols, mixColumn, mixRow, byteOf_ofBytes_zero, byteOf_ofBytes_one,
      byteOf_ofBytes_two, byteOf_ofBytes_three, gmul_one_left, gmul_two_left, gmul_three_left, and_self]
  · simp only [Block.elem, invMixColumns, col_mapCols, invMixColumn, mixRow, byteOf_ofBytes_zero, byteOf_ofBytes_one,
      byteOf_ofBytes_two, byteOf_ofBytes_three, and_self]

/-- Settles O30: the four words of a round key up to Nr are words of the resident schedule. -/
theorem addrkXorsTheRoundKey : Obligations.AddrkXorsTheRoundKey := by
  refine ⟨encodedI_of_immediate (fun _ => rfl) fun _ => rfl, fun s rk hvalid hrk => ?_,
    fun s rk hvalid hrk => exec_addrk_above hvalid hrk, fun s rk hnone => (exec_without_schedule hnone rk).1⟩
  refine ⟨_, exec_addrk hvalid hrk, fun r c => ?_⟩
  have hword : 4 * rk + c.val < s.status.kvar.words := by
    have := round_index_lt s.status.kvar hrk
    omega
  have h60 := hword.trans_le (words_le s.status.kvar)
  refine ⟨h60, hword, ?_⟩
  rw [elem_addRoundKey, schedWord_of_lt _ _ h60]

end Sys2Proof.Proofs
end

section
/-! The two block transforms: their rounds as single commands, their inverse laws and what they read
(spec/43_round_pipeline.md R166 to R168, R175 to R177). -/

namespace Sys2Proof.Proofs

open Sys2Proof.Machine Sys2Proof.Statement

theorem exec_encrypt {s : State} (hvalid : s.status.keyValid = true) :
    exec .encrypt s = .next (withBlock s (encryptBlock s.sched s.status.kvar.nr s.state)) :=
  execEncrypt_resident s hvalid

theorem exec_decrypt {s : State} (hvalid : s.status.keyValid = true) :
    exec .decrypt s = .next (withBlock s (decryptBlock s.sched s.status.kvar.nr s.state)) :=
  execDecrypt_resident s hvalid

/-- Without a resident schedule each of the three commands that read it ends with NO_KEY_SCHEDULE. -/
theorem exec_cipher_without_schedule {i : Instr} {s : State} (hi : i = .encrypt ∨ i = .decrypt ∨ ∃ rk, i = .addrk rk)
    (hnone : s.status.keyValid = false) : exec i s = .next (failed s .noKeySchedule) := by
  rcases hi with rfl | rfl | ⟨rk, rfl⟩
  · exact if_pos hnone
  · exact if_pos hnone
  · exact if_pos hnone

/-! ### The rounds as single commands -/

theorem runCommands_cons_of_exec {i : Instr} {s t : State} (h : exec i s = .next t) (is : List Instr) :
    runCommands (i :: is) s = runCommands is t := by
  rw [runCommands, h]

/-- `encrypt_block`, written out (43_round_pipeline.md R166). -/
theorem encryptBlock_eq (sched : Vector Word 60) (nr : Nat) (b : Block) :
    encryptBlock sched nr b = addRoundKey sched nr (shiftRows (subBytes
      ((List.range' 1 (nr - 1)).foldl (encryptRound sched) (addRoundKey sched 0 b)))) := rfl

/-- `decrypt_block`, written out (43_round_pipeline.md R167). -/
theorem decryptBlock_eq (sched : Vector Word 60) (nr : Nat) (b : Block) :
    decryptBlock sched nr b = addRoundKey sched 0 ((List.range' 1 (nr - 1)).reverse.foldl (decryptRound sched)
      (invSubBytes (invShiftRows (addRoundKey sched nr b)))) := rfl

/-- The middle rounds are the rounds 1 to Nr-1, in either order. -/
theorem round_le_nr {nr r : Nat} (h : r ∈ List.range' 1 (nr - 1)) : r ≤ nr := by
  rw [List.mem_range'_1] at h
  omega

/-- The first three commands of a round write the block in every state, and the last one with a resident schedule. -/
theorem runCommands_encryptRound {s : State} {r : Nat} (hvalid : s.status.keyValid = true)
    (hr : r ≤ s.status.kvar.nr) (b : Block) (is : List Instr) :
    runCommands (([.subbytes, .shiftrows, .mixcols, .addrk r] : List Instr) ++ is) (withBlock s b) =
      runCommands is (withBlock s (encryptRound s.sched b r)) :=
  runCommands_cons_of_exec (exec_addrk_withBlock hvalid hr (mixColumns (shiftRows (subBytes b)))) is

/-- The last three commands of a round write the block in every state, and the first one with a resident schedule. -/
theorem runCommands_decryptRound {s : State} {r : Nat} (hvalid : s.status.keyValid = true)
    (hr : r ≤ s.status.kvar.nr) (b : Block) (is : List Instr) :
    runCommands (([.addrk r, .invmixcols, .invshiftrows, .invsubbytes] : List Instr) ++ is) (withBlock s b) =
      runCommands is (withBlock s (decryptRound s.sched b r)) :=
  runCommands_cons_of_exec (exec_addrk_withBlock hvalid hr b) (.invmixcols :: .invshiftrows :: .invsubbytes :: is)

/-- The commands of a list of rounds fold their effect on the block, whatever commands come after them. -/
theorem runCommands_flatMap {s : State} {commands : Nat → List Instr} {round : Block → Nat → Block} {rounds : List Nat}
    (h : ∀ r ∈ rounds, ∀ b is,
      runCommands (commands r ++ is) (withBlock s b) = runCommands is (withBlock s (round b r)))
    (b : Block) (is : List Instr) :
    runCommands (rounds.flatMap commands ++ is) (withBlock s b) =
      runCommands is (withBlock s (rounds.foldl round b)) := by
  induction rounds generalizing b with
  | nil => rfl
  | cons r rounds ih =>
    rw [List.flatMap_cons, List.append_assoc, h r List.mem_cons_self,
      ih fun r' hr' => h r' (List.mem_cons_of_mem r hr'), List.foldl_cons]

theorem runCommands_encryptCommands {s : State} (hvalid : s.status.keyValid = true) :
    runCommands (encryptCommands s.status.kvar.nr) s =
      .next (withBlock s (encryptBlock s.sched s.status.kvar.nr s.state)) := by
  rw [encryptCommands, List.append_assoc, List.singleton_append,
    runCommands_cons_of_exec (exec_addrk hvalid (Nat.zero_le _)),
    runCommands_flatMap fun r hr => runCommands_encryptRound hvalid (round_le_nr hr)]
  exact runCommands_cons_of_exec (exec_addrk_withBlock hvalid le_rfl _) []

theorem runCommands_decryptCommands {s : State} (hvalid : s.status.keyValid = true) :
    runCommands (decryptCommands s.status.kvar.nr) s =
      .next (withBlock s (decryptBlock s.sched s.status.kvar.nr s.state)) := by
  have first (is : List Instr) :
      runCommands (([.addrk s.status.kvar.nr, .invshiftrows, .invsubbytes] : List Instr) ++ is) s =
        runCommands is (withBlock s (invSubBytes (invShiftRows (addRoundKey s.sched s.status.kvar.nr s.state)))) :=
    runCommands_cons_of_exec (exec_addrk hvalid le_rfl) (.invshiftrows :: .invsubbytes :: is)
  rw [decryptCommands, List.append_assoc, first,
    runCommands_flatMap fun r hr => runCommands_decryptRound hvalid (round_le_nr (List.mem_reverse.1 hr))]
  exact runCommands_cons_of_exec (exec_addrk_withBlock hvalid (Nat.zero_le _) _) []

/-- Settles O31: each round of `encrypt_block` is its four commands, and so the fold over the rounds is their run. -/
theorem encryptIsItsRounds : Obligations.EncryptIsItsRounds :=
  ⟨encodedN_of_format_n (i := .encrypt) rfl,
    fun _ hvalid => ⟨_, exec_encrypt hvalid, runCommands_encryptCommands hvalid⟩,
    fun _ hnone => exec_cipher_without_schedule (.inl rfl) hnone⟩

/-- Settles O32: each round of `decrypt_block` is its four commands, and so the fold over the rounds is their run. -/
theorem decryptIsItsRounds : Obligations.DecryptIsItsRounds :=
  ⟨encodedN_of_format_n (i := .decrypt) rfl,
    fun _ hvalid => ⟨_, exec_decrypt hvalid, runCommands_decryptCommands hvalid⟩,
    fun _ hnone => exec_cipher_without_schedule (.inr (.inl rfl)) hnone⟩

/-! ### The inverse laws -/

/-- Steps that undo the steps of a fold one by one undo the fold when taken in the reverse order. -/
theorem foldl_reverse_foldl {α β : Type} {f g : α → β → α} (h : ∀ a x, g (f a x) x = a) (l : List β) (a : α) :
    l.reverse.foldl g (l.foldl f a) = a := by
  induction l generalizing a with
  | nil => rfl
  | cons x l ih =>
    rw [List.foldl_cons, List.reverse_cons, List.foldl_append, ih]
    exact h a x

theorem decryptBlock_encryptBlock (sched : Vector Word 60) (nr : Nat) (b : Block) :
    decryptBlock sched nr (encryptBlock sched nr b) = b := by
  rw [decryptBlock_eq, encryptBlock_eq, addRoundKey_addRoundKey, invShiftRows_shiftRows, invSubBytes_subBytes,
    foldl_reverse_foldl fun b r => decryptRound_encryptRound sched r b, addRoundKey_addRoundKey]

theorem encryptBlock_decryptBlock (sched : Vector Word 60) (nr : Nat) (b : Block) :
    encryptBlock sched nr (decryptBlock sched nr b) = b := by
  have rounds (b : Block) : (List.range' 1 (nr - 1)).foldl (encryptRound sched)
      ((List.range' 1 (nr - 1)).reverse.foldl (decryptRound sched) b) = b := by
    simpa only [List.reverse_reverse] using
      foldl_reverse_foldl (fun b r => encryptRound_decryptRound sched r b) (List.range' 1 (nr - 1)).reverse b
  rw [encryptBlock_eq, decryptBlock_eq, addRoundKey_addRoundKey, rounds, subBytes_invSubBytes, shiftRows_invShiftRows,
    addRoundKey_addRoundKey]

/-- Two commands of which the second writes the block that was there before the first. -/
theorem runCommands_pair {i j : Instr} {s : State} {b c : Block} (hi : exec i s = .next (withBlock s b))
    (hj : exec j (withBlock s b) = .next (withBlock s c)) (hc : c = s.state) :
    runCommands [i, j] s = .next (withBlock s s.state) := by
  rw [runCommands_cons_of_exec hi, runCommands_cons_of_exec hj, hc]
  rfl

/-- Settles O33: the commands write the transforms, and each pair of transforms is a pair of inverses. -/
theorem decryptUndoesEncrypt : Obligations.DecryptUndoesEncrypt := by
  refine ⟨fun s hvalid => ⟨?_, ?_⟩, fun s => ⟨?_, ?_, ?_, ?_, ?_, ?_⟩, fun s rk hvalid hrk => ?_⟩
  · exact runCommands_pair (exec_encrypt hvalid) (exec_decrypt hvalid) (decryptBlock_encryptBlock ..)
  · exact runCommands_pair (exec_decrypt hvalid) (exec_encrypt hvalid) (encryptBlock_decryptBlock ..)
  · exact runCommands_pair (exec_subbytes s) (exec_invsubbytes _) (invSubBytes_subBytes s.state)
  · exact runCommands_pair (exec_invsubbytes s) (exec_subbytes _) (subBytes_invSubBytes s.state)
  · exact runCommands_pair (exec_shiftrows s) (exec_invshiftrows _) (invShiftRows_shiftRows s.state)
  · exact runCommands_pair (exec_invshiftrows s) (exec_shiftrows _) (shiftRows_invShiftRows s.state)
  · exact runCommands_pair (exec_mixcols s) (exec_invmixcols _) (invMixColumns_mixColumns s.state)
  · exact runCommands_pair (exec_invmixcols s) (exec_mixcols _) (mixColumns_invMixColumns s.state)
  · exact runCommands_pair (exec_addrk hvalid hrk) (exec_addrk_withBlock hvalid hrk _)
      (addRoundKey_addRoundKey s.sched rk s.state)

/-! ### What the commands read -/

section Agreement

variable {sched sched' : Vector Word 60} {v : Variant}
  (hwords : ∀ n, n < v.words → schedWord sched' n = schedWord sched n)

include hwords

/-- Schedules with the same words of a variant have the same round keys up to its Nr (43_round_pipeline.md R165). -/
theorem addRoundKey_congr {rk : Nat} (hrk : rk ≤ v.nr) (b : Block) :
    addRoundKey sched' rk b = addRoundKey sched rk b := by
  have hlt := round_index_lt v hrk
  rw [addRoundKey, addRoundKey, roundKey, roundKey, hwords _ (by omega), hwords _ (by omega), hwords _ (by omega),
    hwords _ (by omega)]

theorem encryptBlock_congr (b : Block) : encryptBlock sched' v.nr b = encryptBlock sched v.nr b := by
  have rounds (b : Block) : (List.range' 1 (v.nr - 1)).foldl (encryptRound sched') b =
      (List.range' 1 (v.nr - 1)).foldl (encryptRound sched) b :=
    List.foldl_ext _ _ b fun _ r hr => addRoundKey_congr hwords (round_le_nr hr) _
  rw [encryptBlock_eq, addRoundKey_congr hwords le_rfl, addRoundKey_congr hwords (Nat.zero_le _), rounds,
    encryptBlock_eq]

theorem decryptBlock_congr (b : Block) : decryptBlock sched' v.nr b = decryptBlock sched v.nr b := by
  have rounds (b : Block) : (List.range' 1 (v.nr - 1)).reverse.foldl (decryptRound sched') b =
      (List.range' 1 (v.nr - 1)).reverse.foldl (decryptRound sched) b :=
    List.foldl_ext _ _ b fun _ r hr => by
      rw [decryptRound, addRoundKey_congr hwords (round_le_nr (List.mem_reverse.1 hr)), decryptRound]
  rw [decryptBlock_eq, addRoundKey_congr hwords le_rfl, addRoundKey_congr hwords (Nat.zero_le _), rounds,
    decryptBlock_eq]

end Agreement

/-- The command ends in two states with the same STATE and the same code. -/
def EndsAlike (i : Instr) (s s' : State) : Prop :=
  ∃ t t', exec i s = .next t ∧ exec i s' = .next t' ∧ t'.state = t.state ∧ t'.status.err = t.status.err

theorem endsAlike_of_withBlock {i : Instr} {s s' : State} {b b' : Block} (h : exec i s = .next (withBlock s b))
    (h' : exec i s' = .next (withBlock s' b')) (hb : b' = b) : EndsAlike i s s' :=
  ⟨_, _, h, h', hb, rfl⟩

theorem endsAlike_of_failed {i : Instr} {s s' : State} {code : ErrCode} (h : exec i s = .next (failed s code))
    (h' : exec i s' = .next (failed s' code)) (hstate : s'.state = s.state) : EndsAlike i s s' :=
  ⟨_, _, h, h', hstate, rfl⟩

/-- Settles O35: the checks read KEY_VALID and KVAR, and the transforms the block and the words of the variant. -/
theorem cipherReadsOnlyStateAndResidentSchedule : Obligations.CipherReadsOnlyStateAndResidentSchedule := by
  intro i s s' hi hstate hkeyValid hkvar hwords
  change EndsAlike i s s'
  cases hvalid : s.status.keyValid with
  | false =>
    exact endsAlike_of_failed (exec_cipher_without_schedule hi hvalid)
      (exec_cipher_without_schedule hi (hkeyValid.trans hvalid)) hstate
  | true =>
    have hvalid' := hkeyValid.trans hvalid
    rcases hi with rfl | rfl | ⟨rk, rfl⟩
    · refine endsAlike_of_withBlock (exec_encrypt hvalid) (exec_encrypt hvalid') ?_
      rw [hstate, hkvar, encryptBlock_congr hwords]
    · refine endsAlike_of_withBlock (exec_decrypt hvalid) (exec_decrypt hvalid') ?_
      rw [hstate, hkvar, decryptBlock_congr hwords]
    · rcases le_or_gt rk s.status.kvar.nr with hrk | hrk
      · refine endsAlike_of_withBlock (exec_addrk hvalid hrk) (exec_addrk hvalid' (hkvar ▸ hrk)) ?_
        rw [hstate, addRoundKey_congr hwords hrk]
      · exact endsAlike_of_failed (exec_addrk_above hvalid hrk) (exec_addrk_above hvalid' (hkvar ▸ hrk)) hstate

end Sys2Proof.Proofs
end

section
/-! Issue, execution and completion of a command, and the host's writes while one is in flight
(spec/44_control.md R190 to R196, 70_reset_and_hazards.md R235). -/

namespace Sys2Proof.Proofs

open Sys2Proof.Machine Sys2Proof.Statement

/-! ### The engine's step -/

theorem engineStep_of_decode_ok {s : State} {i : Instr} (h : decode s.pend = .ok i) : engineStep s = exec i s := by
  rw [engineStep, h]

/-- An illegal word in PEND ends with ILLEGAL_COMMAND and no other effect (60_exceptions.md R205). -/
theorem engineStep_of_decode_illegal {s : State} {r : Reject} (h : decode s.pend = .illegal r) :
    engineStep s = .next (failed s .illegalCommand) := by
  rw [engineStep, h]
  rfl

theorem takeTurn_of_busy {s : State} (h : s.status.busy = true) : s.takeTurn = { s with turns := s.turns.tail } := by
  rw [State.takeTurn, if_pos h]

/-- With a command in flight and the engine to move, a step is the engine's on the state with its turn used up
(44_control.md R192). -/
theorem step_of_engine_next {s : State} (hb : s.status.busy = true) (hreset : s.inReset = false)
    (hturn : s.turns.head? ≠ some .host) : step s = engineStep { s with turns := s.turns.tail } := by
  rw [step_engine ((engineTurn_iff s).2 ⟨hb, hreset, hturn⟩), takeTurn_of_busy hb]

/-- A step of the engine runs the instruction in PEND. -/
theorem step_of_pending {s : State} {i : Instr} (hb : s.status.busy = true) (hreset : s.inReset = false)
    (hturn : s.turns.head? ≠ some .host) (hdecode : decode s.pend = .ok i) :
    step s = exec i { s with turns := s.turns.tail } := by
  rw [step_of_engine_next hb hreset hturn]
  exact engineStep_of_decode_ok (s := { s with turns := s.turns.tail }) hdecode

theorem decode_of_decodeTableWord {nbits w : Nat} {i : Instr} (h : decodeTableWord nbits w = some i) :
    decode (tableWord nbits w) = .ok i := by
  unfold decodeTableWord at h
  split at h
  · next j hj => exact hj.trans (congrArg _ (Option.some.inj h))
  · cases h

/-- Settles O5: the step is the engine's and PEND decodes as assumed, after `withFetchWord` by its definition. -/
theorem engineTurnRunsThePendingCommand : Obligations.EngineTurnRunsThePendingCommand := by
  refine ⟨fun s i => step_of_pending, fun s r hb hreset hturn hdecode => ?_, fun s nbits w i htable => ?_⟩
  · rw [step_of_engine_next hb hreset hturn]
    exact engineStep_of_decode_illegal (s := { s with turns := s.turns.tail }) hdecode
  · exact step_of_pending (s := s.withFetchWord nbits w) rfl rfl nofun (decode_of_decodeTableWord htable)

/-! ### Completion -/

/-- The command has ended, and `irq` shows its DONE when IRQ_EN allows (44_control.md R193). -/
def CompletedWithIrq (s t : State) : Prop :=
  t.status.busy = false ∧ t.status.done = true ∧ t.irq = s.ctrl.irqEn

theorem completedWithIrq_complete {s u : State} (hctrl : u.ctrl = s.ctrl) (code : ErrCode) :
    CompletedWithIrq s (u.complete code) := by
  refine ⟨rfl, rfl, ?_⟩
  simp [State.irq, hctrl]

theorem exec_completedWithIrq {i : Instr} {s t : State} (h : exec i s = .next t) : CompletedWithIrq s t := by
  rcases exec_cases h with ⟨code, -, rfl⟩ | rfl | ⟨v, rfl⟩ | ⟨b, rfl⟩ | ⟨v, -, -, rfl⟩ <;>
    exact completedWithIrq_complete rfl _

theorem engineStep_completedWithIrq {s t : State} (h : engineStep s = .next t) : CompletedWithIrq s t := by
  rcases engineStep_cases h with ⟨i, -, hexec⟩ | ⟨r, -, rfl⟩
  · exact exec_completedWithIrq hexec
  · exact completedWithIrq_complete rfl _

/-- Settles O7: there is a next state, and each end of a command is a completion. -/
theorem everyIssuedWordCompletes : Obligations.EveryIssuedWordCompletes := by
  refine ⟨fun i s => ?_, fun s => ?_⟩
  · obtain ⟨t, ht⟩ := exec_next i s
    exact ⟨t, ht, exec_completedWithIrq ht⟩
  · obtain ⟨t, ht⟩ := engineStep_next s
    exact ⟨t, ht, engineStep_completedWithIrq ht⟩

/-- A command that ends with an error changes nothing but STATUS.ERR, BUSY and DONE (44_control.md R194). -/
theorem exec_eq_failed_of_err {i : Instr} {s t : State} (h : exec i s = .next t) (herr : t.status.err ≠ .none) :
    t = failed s t.status.err := by
  rcases exec_cases h with ⟨code, -, rfl⟩ | rfl | ⟨v, rfl⟩ | ⟨b, rfl⟩ | ⟨v, -, -, rfl⟩
  · rfl
  all_goals exact absurd rfl herr

/-- Settles O8: only the erroneous end of a command has a code, and an illegal word ends in the same way. -/
theorem failingCommandChangesOnlyStatus : Obligations.FailingCommandChangesOnlyStatus := by
  intro s t h herr
  rcases engineStep_cases h with ⟨i, -, hexec⟩ | ⟨r, -, rfl⟩
  · exact exec_eq_failed_of_err hexec herr
  · rfl

/-- Settles O9, from the encoding of format N and from NOP's end. -/
theorem nopOnlyCompletes : Obligations.NopOnlyCompletes :=
  ⟨encodedN_of_format_n (i := .nop) rfl, fun s => succeed_eq s⟩

/-! ### The host's writes to CMD and during a command -/

/-- Settles O6: an idle device stores the issue. -/
theorem issueLatchesTheCommand : Obligations.IssueLatchesTheCommand := by
  intro s v rest hnext hidle
  refine ⟨(used s rest).issue v, ?_, Bool.and_false _, rfl⟩
  rw [step_write_offset (r := .cmd) hnext]
  exact congrArg _ (store_of_idle (s := used s rest) hidle _)

/-- A write that is legal only while idle is dropped during a command (70_reset_and_hazards.md R235). -/
theorem writeReg_dropped {s : State} {r : Reg} (hb : s.status.busy = true) (hr : r.writeNeedsIdle = true) (v : Word) :
    s.writeReg r v = s.dropWrite := by
  have dropped (stored : State) : s.store stored = s.dropWrite := if_pos hb
  cases r with
  | ctrl | cmd | opa | opb | key | state => exact dropped _
  | _ => cases hr

/-- Each of the offsets of R235 is that of a register whose write needs an idle device (10_state.md R22). -/
theorem exists_reg_of_writableOffset {off : Nat} (h : WritableOffset off) :
    ∃ r : Reg, off = r.offset ∧ r.writeNeedsIdle = true := by
  rcases h with rfl | rfl | rfl | rfl | ⟨k, hk, rfl⟩ | ⟨j, hj, rfl⟩
  · exact ⟨.ctrl, rfl, rfl⟩
  · exact ⟨.cmd, rfl, rfl⟩
  · exact ⟨.opa, rfl, rfl⟩
  · exact ⟨.opb, rfl, rfl⟩
  · exact ⟨.key ⟨k, hk⟩, rfl, rfl⟩
  · exact ⟨.state ⟨j, hj⟩, rfl, rfl⟩

/-- A host write during a command to a register that needs an idle device sets OVR and nothing else. -/
theorem step_write_dropped {s : State} {r : Reg} {v : Word} {rest : List HostOp}
    (h : HostNext s (.write r.offset 4 v) rest) (hb : s.status.busy = true) (hr : r.writeNeedsIdle = true) :
    step s = .next (used s rest).dropWrite := by
  rw [step_write_offset h, writeReg_dropped (s := used s rest) hb hr]

/-- A host write at the offset of ID, RESULT or SCHED[i] is ignored (10_state.md R22). -/
theorem step_write_readOnly {s : State} {off : Nat} {v : Word} {rest : List HostOp}
    (h : HostNext s (.write off 4 v) rest) (hoff : ReadOnlyOffset off) : step s = .next (used s rest) := by
  rcases hoff with rfl | rfl | ⟨i, hi, rfl⟩
  · exact step_write_offset (r := .id) h
  · exact step_write_offset (r := .result) h
  · exact step_write_offset (r := .sched ⟨i, hi⟩) h

/-- Settles O44: a dropped write, an ignored one, and the write of STATUS, which does not look at BUSY. -/
theorem busyWriteIsDropped : Obligations.BusyWriteIsDropped := by
  refine ⟨fun s off v rest hnext hb hoff => ?_, fun s off v rest hnext hoff => ?_,
    fun s v rest hnext _ => statusWriteClearsDoneAndOvr s v rest hnext⟩
  · obtain ⟨r, rfl, hr⟩ := exists_reg_of_writableOffset hoff
    exact step_write_dropped hnext hb hr
  · rcases hoff with hreadOnly | hreserved
    · exact step_write_readOnly hnext hreadOnly
    · exact (reservedOffsetsReadZero s off rest hreserved).2 v hnext

/-! ### A write against an ENCRYPT in flight -/

/-- ENCRYPT in flight with a resident schedule and the engine to move: the block is enciphered. -/
theorem step_encrypt {s : State} (hb : s.status.busy = true) (hreset : s.inReset = false)
    (hturn : s.turns.head? ≠ some .host) (hvalid : s.status.keyValid = true) (hdecode : decode s.pend = .ok .encrypt) :
    step s = .next (withBlock { s with turns := s.turns.tail } (encryptBlock s.sched s.status.kvar.nr s.state)) := by
  rw [step_of_pending hb hreset hturn hdecode]
  exact exec_encrypt (s := { s with turns := s.turns.tail }) hvalid

/-- While idle a host write to STATE[j] replaces that column (10_state.md R39). -/
theorem step_write_state_idle {s : State} {j : Fin 4} {v : Word} {rest : List HostOp}
    (h : HostNext s (.write (Reg.state j).offset 4 v) rest) (hidle : s.status.busy = false) :
    step s = .next { used s rest with state := s.state.setCol v j } := by
  rw [step_write_offset h]
  exact congrArg _ (store_of_idle (s := used s rest) hidle _)

/-- Settles O54: with the engine first the device is idle at the write, with the host first the write is dropped. -/
theorem writeRacesWithEncrypt : Obligations.WriteRacesWithEncrypt := by
  intro s v hb hreset hvalid hdecode hops
  refine ⟨_, exec_encrypt hvalid, fun hturns => ?_, fun hturns => ?_⟩
  · exact ⟨_, _, step_encrypt hb hreset (by simp [hturns]) hvalid hdecode,
      step_write_state_idle (j := 0) (rest := []) ⟨hops, hreset, nofun⟩ rfl, rfl, rfl⟩
  · have hnext : HostNext s (.write (Reg.state 0).offset 4 v) [] := ⟨hops, hreset, fun _ => by simp [hturns]⟩
    have hlast : (used s []).dropWrite.turns.head? ≠ some .host := by simp [used, hb, hturns]
    exact ⟨_, _, step_write_dropped hnext hb rfl,
      step_encrypt (s := (used s []).dropWrite) hb hreset hlast hvalid hdecode, rfl, rfl⟩

end Sys2Proof.Proofs
end

section
/-! The error codes, their priority and what each depends on, and the output `irq` (spec/60_exceptions.md R202,
R208, R210). -/

namespace Sys2Proof.Proofs

open Sys2Proof.Machine Sys2Proof.Statement

/-! ### KEYLEN is EXPAND's alone -/

/-- The state with another key length in CTRL (10_state.md R24). -/
def withKeyLen (s : State) (n : BitVec 8) : State := { s with ctrl := { s.ctrl with keyLen := n } }

/-- The command ends in the next state that `finish` makes, with this `finish` whatever KEYLEN holds. -/
def EndsWhateverKeyLen (i : Instr) (s : State) (finish : State → State) : Prop :=
  exec i s = .next (finish s) ∧ ∀ n, exec i (withKeyLen s n) = .next (finish (withKeyLen s n))

/-- A command other than EXPAND ends with a code that is not INVALID_KEY_LENGTH, with a word in RESULT or with a block in
STATE, and neither which of these nor the value depends on KEYLEN (60_exceptions.md R202). -/
theorem exec_endsWhateverKeyLen {i : Instr} (hi : i ≠ .expand) (s : State) :
    (∃ code, code ≠ .invalidKeyLength ∧ EndsWhateverKeyLen i s (failed · code)) ∨
      (∃ v, EndsWhateverKeyLen i s (withResult · v)) ∨ ∃ b, EndsWhateverKeyLen i s (withBlock · b) := by
  have unready (hcipher : i = .encrypt ∨ i = .decrypt ∨ ∃ rk, i = .addrk rk) (hnone : s.status.keyValid = false) :
      ∃ code, code ≠ .invalidKeyLength ∧ EndsWhateverKeyLen i s (failed · code) :=
    ⟨.noKeySchedule, nofun, exec_cipher_without_schedule hcipher hnone,
      fun n => exec_cipher_without_schedule (s := withKeyLen s n) hcipher hnone⟩
  cases i with
  | nop => exact .inl ⟨.none, nofun, rfl, fun _ => rfl⟩
  | gadd | gdbl | gtpl | gmul | mixcol | invmixcol | subb | invsubb | subw | rotw =>
    exact .inr (.inl ⟨_, rfl, fun _ => rfl⟩)
  | wbyte index =>
    rcases Nat.lt_or_ge index 4 with h | h
    · exact .inr (.inl ⟨_, exec_wbyte_of_lt s h, fun n => exec_wbyte_of_lt (withKeyLen s n) h⟩)
    · exact .inl ⟨.operandRange, nofun, exec_wbyte_of_le s h, fun n => exec_wbyte_of_le (withKeyLen s n) h⟩
  | expand => exact absurd rfl hi
  | subbytes | invsubbytes | shiftrows | invshiftrows | mixcols | invmixcols =>
    exact .inr (.inr ⟨_, rfl, fun _ => rfl⟩)
  | addrk rk =>
    cases hvalid : s.status.keyValid with
    | false => exact .inl (unready (.inr (.inr ⟨rk, rfl⟩)) hvalid)
    | true =>
      rcases le_or_gt rk s.status.kvar.nr with hrk | hrk
      · exact .inr (.inr ⟨_, exec_addrk hvalid hrk, fun n => exec_addrk (s := withKeyLen s n) hvalid hrk⟩)
      · exact .inl ⟨.operandRange, nofun, exec_addrk_above hvalid hrk,
          fun n => exec_addrk_above (s := withKeyLen s n) hvalid hrk⟩
  | encrypt =>
    cases hvalid : s.status.keyValid with
    | false => exact .inl (unready (.inl rfl) hvalid)
    | true => exact .inr (.inr ⟨_, exec_encrypt hvalid, fun n => exec_encrypt (s := withKeyLen s n) hvalid⟩)
  | decrypt =>
    cases hvalid : s.status.keyValid with
    | false => exact .inl (unready (.inr (.inl rfl)) hvalid)
    | true => exact .inr (.inr ⟨_, exec_decrypt hvalid, fun n => exec_decrypt (s := withKeyLen s n) hvalid⟩)

/-- A command that ends with INVALID_KEY_LENGTH is EXPAND. -/
theorem eq_expand_of_invalidKeyLength {i : Instr} {s t : State} (h : exec i s = .next t)
    (herr : t.status.err = .invalidKeyLength) : i = .expand := by
  by_contra hi
  rcases exec_endsWhateverKeyLen hi s with ⟨code, hcode, e, -⟩ | ⟨v, e, -⟩ | ⟨b, e, -⟩ <;> cases e.symm.trans h
  · exact hcode herr
  · cases herr
  · cases herr

/-- Changing KEYLEN before a command other than EXPAND is changing it after. -/
theorem exec_withKeyLen {i : Instr} {s t : State} (hi : i ≠ .expand) (h : exec i s = .next t) (n : BitVec 8) :
    exec i (withKeyLen s n) = .next (withKeyLen t n) := by
  rcases exec_endsWhateverKeyLen hi s with ⟨code, -, e, blind⟩ | ⟨v, e, blind⟩ | ⟨b, e, blind⟩ <;>
    cases e.symm.trans h <;> exact blind n

/-- Settles O26: EXPAND's own check, and the ends of every other command. -/
theorem badKeyLengthIsHarmlessUntilExpand : Obligations.BadKeyLengthIsHarmlessUntilExpand :=
  ⟨fun _ => exec_expand_of_bad_keyLen, fun _ _ _ => eq_expand_of_invalidKeyLength,
    fun _ _ _ n hi h => exec_withKeyLen hi h n⟩

/-! ### The priority of the codes -/

/-- `ADDRK 200`, the first word of the rule's example (60_exceptions.md R208). -/
theorem decode_addrk_200 : decode 0x0000c846#32 = .ok (.addrk 200) := by decide

/-- The second word of the example has RSV nonzero (60_exceptions.md R208). -/
theorem decode_rsv_nonzero : decode 0x00010446#32 = .illegal .reservedNonzero := by decide

/-- Settles O40: each check as its command makes it, and the two words of the example by what they decode to. -/
theorem errorsHaveOnePriority : Obligations.ErrorsHaveOnePriority := by
  refine ⟨fun s r => engineStep_of_decode_illegal, fun s => exec_expand_of_bad_keyLen,
    fun s rk hnone => exec_without_schedule hnone rk, fun s rk => exec_addrk_above, fun s i => exec_wbyte_of_le s,
    fun s hpend hnone => ?_, fun s hpend => ?_⟩
  · rw [engineStep_of_decode_ok (hpend ▸ decode_addrk_200)]
    exact (exec_without_schedule hnone 200).1
  · exact engineStep_of_decode_illegal (hpend ▸ decode_rsv_nonzero)

/-! ### The output `irq` -/

theorem irq_iff (s : State) : s.irq = true ↔ s.ctrl.irqEn = true ∧ s.status.done = true := by
  rw [State.irq, Bool.and_eq_true]

theorem irq_of_not_done {s : State} (h : s.status.done = false) : s.irq = false := by
  rw [State.irq, h, Bool.and_false]

/-- A host write of 1 to STATUS bit 1 clears DONE, busy or not (10_state.md R34). -/
theorem step_ack_done {s : State} {v : Word} {rest : List HostOp} (h : HostNext s (.write 0x008 4 v) rest)
    (hbit : v.getLsbD 1 = true) : ∃ t, step s = .next t ∧ t.status.done = false :=
  ⟨_, step_write_offset (r := .status) h, by simp [State.writeReg, hbit]⟩

/-- The assertion of reset by a host out of reset (70_reset_and_hazards.md R230). -/
theorem step_assertReset {s : State} {rest : List HostOp} (h : HostNext s .assertReset rest) :
    step s = .next (used s rest).applyReset := step_of_hostNext h (.inl nofun)

/-- Settles O41: the three ways to clear DONE, and a write of CTRL, which leaves it. -/
theorem irqFollowsDoneAndItsEnable : Obligations.IrqFollowsDoneAndItsEnable := by
  refine ⟨irq_iff, fun s v rest hnext hbit => ?_, fun s v rest hnext hidle => ?_, fun s rest hnext => ?_,
    fun s v rest hnext hidle => ?_⟩
  · obtain ⟨t, hstep, hdone⟩ := step_ack_done hnext hbit
    exact ⟨t, hstep, irq_of_not_done hdone, hdone⟩
  · obtain ⟨t, hstep, hirq, -⟩ := issueLatchesTheCommand s v rest hnext hidle
    exact ⟨t, hstep, hirq⟩
  · exact ⟨_, step_assertReset hnext, irq_of_not_done rfl⟩
  · obtain ⟨hctrl, -⟩ := idleWriteStoresOneRegister s 0x004 v rest hnext hidle
    exact ⟨_, hctrl rfl, rfl, rfl⟩

end Sys2Proof.Proofs
end

section
/-! Reset, and what a host that waits for BUSY = 0 can count on (spec/70_reset_and_hazards.md R230 to R237). -/

namespace Sys2Proof.Proofs

open Sys2Proof.Machine Sys2Proof.Statement

/-! ### What a host that keeps its duty loses -/

/-- The host's next operation takes a free value even though the host keeps its duty: it asserts reset, or reads a word
of SCHED that no EXPAND has written (70_reset_and_hazards.md R231; log entries 1, 2 and 4). -/
def MayDraw (s : State) : Prop :=
  (∃ rest, s.hostOps = .assertReset :: rest) ∨
    ∃ (op : HostOp) (rest : List HostOp) (i : Nat), s.hostOps = op :: rest ∧ s.schedInit ≤ i ∧ i < 60 ∧
      (op = .read (0x100 + 4 * i) 4 ∨ ∃ name, op = .readKeep name (0x100 + 4 * i))

/-- From the one state to the other no write is dropped, and a free value is drawn only where one may be. -/
def LosesNothing (s t : State) : Prop :=
  (t.status.ovr = true → s.status.ovr = true) ∧ (t.draws ≠ s.draws → MayDraw s)

theorem losesNothing_of_kept {s t : State} (hovr : t.status.ovr = s.status.ovr) (hdraws : t.draws = s.draws) :
    LosesNothing s t :=
  ⟨fun h => hovr ▸ h, fun hne => absurd hdraws hne⟩

/-- A command neither drops a write nor draws a free value. -/
theorem exec_losesNothing {i : Instr} {s t : State} (h : exec i s = .next t) : LosesNothing s t := by
  rcases exec_cases h with ⟨code, -, rfl⟩ | rfl | ⟨v, rfl⟩ | ⟨b, rfl⟩ | ⟨v, -, -, rfl⟩ <;>
    exact losesNothing_of_kept rfl rfl

theorem engineStep_losesNothing {s t : State} (h : engineStep s = .next t) : LosesNothing s t := by
  rcases engineStep_cases h with ⟨i, -, hexec⟩ | ⟨r, -, rfl⟩
  · exact exec_losesNothing hexec
  · exact losesNothing_of_kept rfl rfl

/-- The duty of the host's next operation: it is one that may come during a command, or the device is idle
(70_reset_and_hazards.md R237). -/
theorem keepsDuty_of_hostDutiful {s : State} {op : HostOp} {rest : List HostOp} (hduty : s.hostDutiful = true)
    (hops : s.hostOps = op :: rest) : s.status.busy = false ∨ op.keepsDuty = true := by
  simpa [State.hostDutiful, hops] using hduty

/-- SCHED[i] stands at the offset 0x100 + 4 * i and at no other (10_state.md R22). -/
theorem offset_of_regAt_eq_sched {off : Nat} {i : Fin 60} (halign : off % 4 = 0) (h : regAt off = .sched i) :
    off = 0x100 + 4 * i := by
  unfold regAt at h
  split_ifs at h
  cases h
  dsimp only
  omega

/-- A read that draws is of a register whose value is free. -/
theorem readsAnyValue_of_draws_ne {s : State} {r : Reg} (h : (s.readReg r).draws ≠ s.draws) :
    s.readsAnyValue r = true := by
  by_contra hheld
  rw [readReg_of_held (by simpa using hheld)] at h
  exact h rfl

/-- A read within the duty has a free value only of a word of SCHED that no EXPAND has written
(70_reset_and_hazards.md R231, R237). -/
theorem unwritten_of_readsAnyValue {s : State} {r : Reg} (hduty : s.status.busy = false ∨ r.readNeedsIdle = false)
    (hfree : s.readsAnyValue r = true) : ∃ i : Fin 60, r = .sched i ∧ s.schedInit ≤ i := by
  cases r with
  | result | state j =>
    have hidle : s.status.busy = false := hduty.resolve_right nofun
    exact absurd (hidle.symm.trans hfree) nofun
  | sched i =>
    have hidle : s.status.busy = false := hduty.resolve_right nofun
    exact ⟨i, rfl, ((readsAnyValue_sched_iff s i).1 hfree).resolve_left (by simp [hidle])⟩
  | _ => cases hfree

/-- A read within the duty loses nothing, kept under a name or not. -/
theorem readReg_losesNothing {s : State} {op : HostOp} {rest : List HostOp} {off : Nat}
    (hops : s.hostOps = op :: rest) (hop : op = .read off 4 ∨ ∃ name, op = .readKeep name off) (halign : off % 4 = 0)
    (hduty : s.status.busy = false ∨ (regAt off).readNeedsIdle = false) :
    LosesNothing s (({ s with hostOps := rest } : State).readReg (regAt off)) := by
  refine ⟨id, fun hdraw => ?_⟩
  obtain ⟨i, hreg, hunwritten⟩ := unwritten_of_readsAnyValue (s := { s with hostOps := rest }) hduty
    (readsAnyValue_of_draws_ne hdraw)
  obtain rfl := offset_of_regAt_eq_sched halign hreg
  exact .inr ⟨op, rest, i, hops, hunwritten, i.isLt, hop⟩

theorem writeReg_draws (s : State) (r : Reg) (v : Word) : (s.writeReg r v).draws = s.draws := by
  rcases writeReg_cases s r v with ⟨-, e⟩ | ⟨-, e⟩ | ⟨-, e⟩ |
    ⟨-, ⟨-, e⟩ | ⟨-, e⟩ | ⟨-, e⟩ | ⟨-, e⟩ | ⟨_, -, e⟩ | ⟨_, -, e⟩⟩ <;> rw [e] <;> rfl

/-- A write within the duty does not set OVR: one that needs an idle device finds it so (10_state.md R32). -/
theorem writeReg_ovr {s : State} {r : Reg} (hduty : s.status.busy = false ∨ r.writeNeedsIdle = false) {v : Word}
    (h : (s.writeReg r v).status.ovr = true) : s.status.ovr = true := by
  cases r with
  | ctrl | cmd | opa | opb | key | state =>
    have hidle : s.status.busy = false := hduty.resolve_right nofun
    rw [State.writeReg, store_of_idle hidle] at h
    exact h
  | status =>
    have hacked : (s.status.ovr && !v.getLsbD 5) = true := h
    exact (Bool.and_eq_true_iff.1 hacked).1
  | id | result | sched | reserved => exact h

/-- A write within the duty loses nothing. -/
theorem writeReg_losesNothing {s : State} {rest : List HostOp} {r : Reg} (v : Word)
    (hduty : s.status.busy = false ∨ r.writeNeedsIdle = false) :
    LosesNothing s (({ s with hostOps := rest } : State).writeReg r v) :=
  ⟨writeReg_ovr (s := { s with hostOps := rest }) hduty, fun hne => absurd (writeReg_draws _ r v) hne⟩

/-- Asserting reset clears OVR, and is an operation that may draw (70_reset_and_hazards.md R230). -/
theorem applyReset_losesNothing {s : State} {rest : List HostOp} (hops : s.hostOps = .assertReset :: rest) :
    LosesNothing s ({ s with hostOps := rest } : State).applyReset :=
  ⟨nofun, fun _ => .inl ⟨rest, hops⟩⟩

/-- An operation that the duty allows, performed out of reset, loses nothing. -/
theorem hostAct_losesNothing {s t : State} {op : HostOp} {rest : List HostOp} (hops : s.hostOps = op :: rest)
    (hduty : s.status.busy = false ∨ op.keepsDuty = true) (h : hostAct op { s with hostOps := rest } = .next t) :
    LosesNothing s t := by
  rcases hostAct_cases h with ⟨off, -, halign, haccess⟩ | ⟨rfl, rfl⟩ | ⟨rfl, rfl⟩ | ⟨rfl, rfl⟩
  · rcases haccess with ⟨rfl, rfl⟩ | ⟨v, rfl, rfl⟩ | ⟨name, rfl, rfl⟩ | ⟨name, v, rfl, -, rfl⟩
    · exact readReg_losesNothing hops (.inl rfl) halign (by simpa [HostOp.keepsDuty] using hduty)
    · exact writeReg_losesNothing v (by simpa [HostOp.keepsDuty] using hduty)
    · exact readReg_losesNothing hops (.inr ⟨name, rfl⟩) halign (by simpa [HostOp.keepsDuty] using hduty)
    · exact writeReg_losesNothing v (by simpa [HostOp.keepsDuty] using hduty)
  · exact losesNothing_of_kept rfl rfl
  · exact applyReset_losesNothing hops
  · exact losesNothing_of_kept rfl rfl

theorem hostStep_losesNothing {s t : State} (hduty : s.hostDutiful = true) (h : hostStep s = .next t) :
    LosesNothing s t := by
  rcases hostStep_cases h with ⟨-, rfl⟩ | ⟨rest, -, -, -, rfl⟩ | ⟨op, rest, hops, -, -, hact⟩ | ⟨rest, hops, -, rfl⟩ |
    ⟨rest, -, -, rfl⟩
  · exact losesNothing_of_kept rfl rfl
  · exact losesNothing_of_kept rfl rfl
  · exact hostAct_losesNothing hops (keepsDuty_of_hostDutiful hduty hops) hact
  · exact applyReset_losesNothing hops
  · exact losesNothing_of_kept rfl rfl

/-- Settles O53: neither the engine's step nor the host's within its duty loses anything, and the choice of turns is no
part of either. -/
theorem dutifulHostLosesNothing : Obligations.DutifulHostLosesNothing := by
  intro s t hduty hstep
  have taken : LosesNothing s.takeTurn t := by
    rcases step_cases hstep with ⟨-, hengine⟩ | ⟨-, hhost⟩
    · exact engineStep_losesNothing hengine
    · exact hostStep_losesNothing (s := s.takeTurn) hduty hhost
  exact taken

/-! ### The reset values -/

/-- At reset the registers that have a reset value hold 0 (70_reset_and_hazards.md R230, 10_state.md R22). -/
theorem registers_of_atReset {s : State} (h : s.AtReset) :
    s.ctrl.word = 0 ∧ s.status.word = 0 ∧ s.opa = 0 ∧ s.opb = 0 ∧ s.result = 0 ∧ (∀ k (h : k < 8), s.key[k] = 0) ∧
      (∀ j, s.state.col j = 0) ∧ s.pend = 0 ∧ s.schedInit = 0 := by
  obtain ⟨hctrl, hstatus, hopa, hopb, hresult, hkey, hstate, hpend, hinit⟩ := h
  refine ⟨?_, ?_, hopa, hopb, hresult, fun k hk => ?_, fun j => ?_, hpend, hinit⟩
  · rw [hctrl]; decide
  · rw [hstatus]; decide
  · rw [hkey]; exact Vector.getElem_replicate hk
  · rw [hstate]; revert j; decide

theorem atReset_reset : State.reset.AtReset := ⟨rfl, rfl, rfl, rfl, rfl, rfl, rfl, rfl, rfl⟩

theorem atReset_applyReset (s : State) : s.applyReset.AtReset := ⟨rfl, rfl, rfl, rfl, rfl, rfl, rfl, rfl, rfl⟩

/-- Settles O56: the reset values, and a host with no operation to come. -/
theorem resetStateIsIdle : Obligations.ResetStateIsIdle := by
  obtain ⟨hctrl, hstatus, hopa, hopb, hresult, hkey, hstate, hpend, -⟩ := registers_of_atReset atReset_reset
  exact ⟨rfl, rfl, rfl, hstatus, hctrl, hopa, hopb, hresult, hkey, hstate, hpend, rfl⟩

theorem inv_reset : State.reset.Inv where
  inFlight := nofun
  residentIff := by simp [State.reset]
  residentWords := nofun
  noVariant := fun _ => rfl
  initBound := Nat.zero_le 60
  heldInReset := nofun
  namesDistinct := .nil

/-- Settles O57: the relations between the fields by the reset values, and no schedule is resident. -/
theorem resetMeetsTheInvariant : Obligations.ResetMeetsTheInvariant := ⟨inv_reset, nofun⟩

/-! ### The reset line -/

/-- While reset is asserted a step is the host's, for what its next operation does to the reset line
(70_reset_and_hazards.md R230). -/
theorem step_inReset {s : State} {op : HostOp} {rest : List HostOp} (hreset : s.inReset = true)
    (hops : s.hostOps = op :: rest) : step s = hostActInReset op (used s rest) := by
  have hturn : s.engineTurn = false := by simp [State.engineTurn, hreset]
  rw [step_host hturn]
  exact hostStep_inReset (s := s.takeTurn) hops hreset

/-- The two operations of the reset line do the same in reset and out of it (70_reset_and_hazards.md R230). -/
theorem step_resetLine {s : State} {op : HostOp} {rest : List HostOp}
    (h : HostNext s op rest ∨ (s.inReset = true ∧ s.hostOps = op :: rest))
    (hop : op = .assertReset ∨ op = .releaseReset) : step s = hostAct op (used s rest) := by
  rcases h with hnext | ⟨hreset, hops⟩
  · exact step_of_hostNext hnext (.inl (by rcases hop with rfl | rfl <;> nofun))
  · rw [step_inReset hreset hops]
    rcases hop with rfl | rfl <;> rfl

/-- During reset every host operation but the two of the reset line stops (70_reset_and_hazards.md R230). -/
theorem step_access_inReset {s : State} {op : HostOp} {rest : List HostOp} (hreset : s.inReset = true)
    (hops : s.hostOps = op :: rest) (hassert : op ≠ .assertReset) (hrelease : op ≠ .releaseReset) :
    step s = .fault .hostAccessInReset := by
  rw [step_inReset hreset hops]
  cases op with
  | assertReset => exact absurd rfl hassert
  | releaseReset => exact absurd rfl hrelease
  | read | write | readKeep | writeKept | wait => rfl

/-- Settles O55: the assertion gives the reset values, the release changes the line alone, and one after the other they
leave an idle device. -/
theorem assertedResetClearsEveryRegister : Obligations.AssertedResetClearsEveryRegister := by
  refine ⟨fun s rest hassert => ?_, fun s op rest => step_access_inReset,
    fun s rest hrelease => step_resetLine hrelease (.inr rfl), fun s rest hassert => ?_⟩
  · obtain ⟨hctrl, hstatus, hopa, hopb, hresult, hkey, hstate, hpend, hinit⟩ :=
      registers_of_atReset (atReset_applyReset (used s rest))
    exact ⟨_, step_resetLine hassert (.inl rfl), hctrl, hstatus, hopa, hopb, hresult, hkey, hstate, hpend, hinit, rfl,
      rfl, rfl, rfl⟩
  · exact ⟨_, _, step_assertReset hassert, step_resetLine (.inr ⟨rfl, rfl⟩) (.inr rfl), rfl, rfl, rfl, rfl, rfl⟩

end Sys2Proof.Proofs
end
